-- ==== Sys2Proof/Word.lean ====
section
/-! DEFINITION. The word types of the machine (spec/00_scope.md R7, R8): every value is an unsigned
integer of a fixed width, and arithmetic is done on unbounded integers and truncated where a rule says so. -/

namespace Sys2Proof

/-- A `u8`: a general register, a timer, a memory byte, an immediate `kk`. -/
abbrev Byte := BitVec 8

/-- A `u16`: `I`, `pc`, a stack entry, an opcode. -/
abbrev Word := BitVec 16

/-- A `u12`: the operand field `nnn` (30 R91). -/
abbrev Addr12 := BitVec 12

/-- A `u4`: the operand field `n`, and a key symbol (30 R91, 40 R130). -/
abbrev Nibble := BitVec 4

/-- The index of a general register, one nibble, 0 to 15 (30 R91, 90 C4). -/
abbrev Reg := BitVec 4

/-- Register 15, the flag register (10 R21). -/
abbrev VF : Reg := 15#4

/-- `trunc8(v) = v mod 256` (R7). -/
abbrev trunc8 (v : Nat) : Byte := BitVec.ofNat 8 v

/-- `trunc16(v) = v mod 65536` (R7). -/
abbrev trunc16 (v : Nat) : Word := BitVec.ofNat 16 v

end Sys2Proof
end

