-- ==== Sys2Proof/Config.lean ====
section
/-! DEFINITION. The implementation parameters of spec/00_scope.md R5: the sizes this hardware takes, the type of the
open configuration, and the free values, which are constants without a body. -/

namespace Sys2Proof

/-- `MEM_SIZE`: bytes of memory (R5). -/
abbrev memSize : Nat := 4096

/-- `LOAD_ADDR`: address of the first program byte and reset value of `pc` (R5). -/
abbrev loadAddr : Nat := 0x200

/-- `FONT_BASE`: address of the first font byte (R5, 20 R68, D4). -/
abbrev fontBase : Nat := 0x000

/-- Bytes of `FONT_DATA`: 16 glyphs of 5 bytes (R5, 20 R68). -/
abbrev fontSize : Nat := 80

/-- `STACK_DEPTH`: call-stack entries (R5). -/
abbrev stackDepth : Nat := 16

/-- `DISP_W`: display width in pixels (R5). -/
abbrev dispW : Nat := 64

/-- `DISP_H`: display height in pixels (R5). -/
abbrev dispH : Nat := 32

/-- `NKEYS`: key symbols (R5). -/
abbrev nKeys : Nat := 16

/-- `SHIFT_MODE`, the shift quirk (43 R190). -/
inductive ShiftMode
  | shiftVy
  | shiftVxInPlace
  deriving DecidableEq, Repr, Inhabited

/-- `INDEX_MODE`, the index quirk of the block transfers (44 R204). -/
inductive IndexMode
  | unchanged
  | incByX
  | incByXPlus1
  deriving DecidableEq, Repr, Inhabited

/-- The configuration a run takes, constant from one `Reset` or `LoadROM` to the next (R5, D34).
`SPEED` is an integer of at least 1, so the field holds `SPEED - 1`. -/
structure Config where
  shiftMode      : ShiftMode
  indexMode      : IndexMode
  tickWhenPaused : Bool
  speedLessOne   : Nat
  /-- `FONT_DATA`, the bytes `Reset` and `LoadROM` install at `FONT_BASE` (20 R68, D4). -/
  font           : Vector Byte fontSize
  deriving DecidableEq, Repr, Inhabited

/-- `SPEED`, the number of steps in a cycle (R5). -/
def Config.speed (c : Config) : Nat := c.speedLessOne + 1

/-- `QUIRK`, the source's three-valued selector (R6). -/
inductive Quirk
  | legacy
  | shiftOnly
  | modern
  deriving DecidableEq, Repr

/-- `LEGACY_INDEX_INC`, what `Legacy` means for the index register (R5, D13). -/
inductive LegacyIndexInc
  | incByX
  | incByXPlus1
  deriving DecidableEq, Repr

/-- The index mode a legacy selection stands for (R6, D13). -/
def LegacyIndexInc.indexMode : LegacyIndexInc → IndexMode
  | .incByX => .incByX
  | .incByXPlus1 => .incByXPlus1

/-- The mapping from `QUIRK` to `SHIFT_MODE` (R6, D12). -/
def Quirk.shiftMode : Quirk → ShiftMode
  | .legacy => .shiftVy
  | .shiftOnly => .shiftVy
  | .modern => .shiftVxInPlace

/-- The mapping from `QUIRK` to `INDEX_MODE` (R6, D12, D13). -/
def Quirk.indexMode (legacyInc : LegacyIndexInc) : Quirk → IndexMode
  | .legacy => legacyInc.indexMode
  | .shiftOnly => .unchanged
  | .modern => .unchanged

/-- The configuration the host supplies at startup. The spec leaves it open and names no default (D12, D13, D14, D34),
so it has no body: nothing can be proved of its value. `FONT_DATA`, which has a default, takes it in Machine/Boot.lean.
DESIGN CHOICE, safe: notes/assumptions/4.md. -/
opaque Config.supplied : Config

/-- The byte `draw_u8()` yields at the n-th executed `RND` (45 R220, D30): a free value. Safe:
notes/assumptions/5.md. -/
opaque Config.randomByte : Nat → Byte

end Sys2Proof
end

