-- ==== Sys2Proof/Syntax.lean ====
section
/-! DEFINITION. The 34 instructions of the catalog (spec/30_encoding.md R94), one constructor per row of
spec/opcode_table.json, in the table's order. Operands are the fields of R91; every value of every field is legal (R100),
so the operand types are the whole of an instruction's well-formedness. -/

namespace Sys2Proof

inductive Instr
  /-- `00E0` CLS (46 R231). -/
  | cls
  /-- `00EE` RET (41 R153). -/
  | ret
  /-- `1nnn` JP addr (41 R151). -/
  | jp (nnn : Addr12)
  /-- `2nnn` CALL addr (41 R152). -/
  | call (nnn : Addr12)
  /-- `3xkk` SE Vx, byte (41 R155). -/
  | seByte (x : Reg) (kk : Byte)
  /-- `4xkk` SNE Vx, byte (41 R156). -/
  | sneByte (x : Reg) (kk : Byte)
  /-- `5xy0` SE Vx, Vy (41 R157). -/
  | seReg (x y : Reg)
  /-- `6xkk` LD Vx, byte (42 R171). -/
  | ldByte (x : Reg) (kk : Byte)
  /-- `7xkk` ADD Vx, byte (42 R172). -/
  | addByte (x : Reg) (kk : Byte)
  /-- `8xy0` LD Vx, Vy (42 R173). -/
  | ldReg (x y : Reg)
  /-- `8xy1` OR Vx, Vy (42 R174). -/
  | orReg (x y : Reg)
  /-- `8xy2` AND Vx, Vy (42 R175). -/
  | andReg (x y : Reg)
  /-- `8xy3` XOR Vx, Vy (42 R176). -/
  | xorReg (x y : Reg)
  /-- `8xy4` ADD Vx, Vy (42 R177). -/
  | addReg (x y : Reg)
  /-- `8xy5` SUB Vx, Vy (42 R178). -/
  | subReg (x y : Reg)
  /-- `8xy6` SHR Vx, Vy (43 R191). -/
  | shr (x y : Reg)
  /-- `8xy7` SUBN Vx, Vy (42 R179). -/
  | subnReg (x y : Reg)
  /-- `8xyE` SHL Vx, Vy (43 R192). -/
  | shl (x y : Reg)
  /-- `9xy0` SNE Vx, Vy (41 R158). -/
  | sneReg (x y : Reg)
  /-- `Annn` LD I, addr (44 R200). -/
  | ldI (nnn : Addr12)
  /-- `Bnnn` JP V0, addr (41 R154). -/
  | jpV0 (nnn : Addr12)
  /-- `Cxkk` RND Vx, byte (45 R221). -/
  | rnd (x : Reg) (kk : Byte)
  /-- `Dxyn` DRW Vx, Vy, nibble (46 R232). -/
  | drw (x y : Reg) (n : Nibble)
  /-- `Ex9E` SKP Vx (41 R159). -/
  | skp (x : Reg)
  /-- `ExA1` SKNP Vx (41 R160). -/
  | sknp (x : Reg)
  /-- `Fx07` LD Vx, DT (47 R251). -/
  | ldVxDT (x : Reg)
  /-- `Fx0A` LD Vx, K (47 R250). -/
  | ldVxK (x : Reg)
  /-- `Fx15` LD DT, Vx (47 R252). -/
  | ldDTVx (x : Reg)
  /-- `Fx18` LD ST, Vx (47 R253). -/
  | ldSTVx (x : Reg)
  /-- `Fx1E` ADD I, Vx (44 R201). -/
  | addIVx (x : Reg)
  /-- `Fx29` LD F, Vx (44 R202). -/
  | ldFVx (x : Reg)
  /-- `Fx33` LD B, Vx (44 R203). -/
  | ldBVx (x : Reg)
  /-- `Fx55` LD [I], Vx (44 R205). -/
  | storeRegs (x : Reg)
  /-- `Fx65` LD Vx, [I] (44 R206). -/
  | loadRegs (x : Reg)
  deriving DecidableEq, Repr

end Sys2Proof
end

