-- ==== Sys2Proof/WellFormed.lean ====
section
/-! DEFINITION. What is checked of the data the machine is given.
An instruction needs no check beyond its operand widths: "Every value of every operand field is legal" (spec/30_encoding.md
R100), and the operand types of Syntax.lean are those widths. What the spec does check is the ROM of a load (R69, R302).
An instruction written with its operands as plain numbers, as the decoder's argument list (R95) or an assembler (R101) has
them, is checked for arity and widths by `Written.wf`. -/

namespace Sys2Proof

/-- A ROM fits: `length(bytes) + LOAD_ADDR ≤ MEM_SIZE` (20 R69, 70 R302). -/
def romFits (bytes : List Byte) : Bool := decide (bytes.length + loadAddr ≤ memSize)

/-- The kinds of operand field (30 R91). -/
inductive OperandKind
  | nnn
  | kk
  | x
  | y
  | n
  deriving DecidableEq, Repr

/-- The width of an operand field in bits (30 R91). -/
def OperandKind.width : OperandKind → Nat
  | .nnn => 12
  | .kk => 8
  | .x => 4
  | .y => 4
  | .n => 4

/-- The six formats and their ordered argument lists (30 R93). -/
inductive Format
  | z
  | a
  | xb
  | xy
  | xyn
  | x
  deriving DecidableEq, Repr

/-- The arguments of a format, in order (30 R93). -/
def Format.arguments : Format → List OperandKind
  | .z => []
  | .a => [.nnn]
  | .xb => [.x, .kk]
  | .xy => [.x, .y]
  | .xyn => [.x, .y, .n]
  | .x => [.x]

/-- An argument list fits a list of operand kinds: the same length, and each value within its field's width. -/
def argumentsFit : List OperandKind → List Nat → Bool
  | [], [] => true
  | k :: ks, v :: vs => decide (v < 2 ^ k.width) && argumentsFit ks vs
  | [], _ :: _ => false
  | _ :: _, [] => false

/-- An instruction's arguments as plain numbers. -/
structure Written where
  format    : Format
  arguments : List Nat
  deriving DecidableEq, Repr

/-- The written form has its format's arity, and every argument its field's width (30 R91, R93). -/
def Written.wf (w : Written) : Bool := argumentsFit w.format.arguments w.arguments

/-- The format of an instruction (30 R94). -/
def Instr.format : Instr → Format
  | .cls | .ret => .z
  | .jp _ | .call _ | .ldI _ | .jpV0 _ => .a
  | .seByte _ _ | .sneByte _ _ | .ldByte _ _ | .addByte _ _ | .rnd _ _ => .xb
  | .seReg _ _ | .sneReg _ _ | .ldReg _ _ | .orReg _ _ | .andReg _ _ | .xorReg _ _ => .xy
  | .addReg _ _ | .subReg _ _ | .shr _ _ | .subnReg _ _ | .shl _ _ => .xy
  | .drw _ _ _ => .xyn
  | .skp _ | .sknp _ | .ldVxDT _ | .ldVxK _ | .ldDTVx _ | .ldSTVx _ => .x
  | .addIVx _ | .ldFVx _ | .ldBVx _ | .storeRegs _ | .loadRegs _ => .x

/-- The arguments of an instruction in the order of its record (30 R92). -/
def Instr.arguments : Instr → List Nat
  | .cls | .ret => []
  | .jp nnn | .call nnn | .ldI nnn | .jpV0 nnn => [nnn.toNat]
  | .seByte x kk | .sneByte x kk | .ldByte x kk | .addByte x kk | .rnd x kk => [x.toNat, kk.toNat]
  | .seReg x y | .sneReg x y | .ldReg x y | .orReg x y | .andReg x y | .xorReg x y => [x.toNat, y.toNat]
  | .addReg x y | .subReg x y | .shr x y | .subnReg x y | .shl x y => [x.toNat, y.toNat]
  | .drw x y n => [x.toNat, y.toNat, n.toNat]
  | .skp x | .sknp x | .ldVxDT x | .ldVxK x | .ldDTVx x | .ldSTVx x => [x.toNat]
  | .addIVx x | .ldFVx x | .ldBVx x | .storeRegs x | .loadRegs x => [x.toNat]

/-- The instruction as written. -/
def Instr.written (i : Instr) : Written := ⟨i.format, i.arguments⟩

end Sys2Proof
end

