-- ==== Sys2Proof/Decode.lean ====
section
/-! DEFINITION. Decoding and encoding (spec/30_encoding.md): the catalog of R94 as a list of records with mask, match and
extractors, the first-match scan of R95, the decoder on bytes (20 R63), and after it the encoder.
The mask and match values are the spec's, which marks them as general knowledge (G1, G6): notes/assumptions/9.md. -/

namespace Sys2Proof

/-- An extractor, a {mask, shift} pair (R91). -/
structure Extractor where
  mask  : Word
  shift : Nat
  deriving DecidableEq, Repr

/-- `(opcode AND extractor.mask) >> extractor.shift`, as a value of the field's width (R92). -/
def Extractor.take (e : Extractor) (w : Nat) (op : Word) : BitVec w := ((op &&& e.mask) >>> e.shift).setWidth w

/-- The field `nnn`, bits 11 to 0 (R91). -/
def fieldNnn (op : Word) : Addr12 := Extractor.take ⟨0x0FFF#16, 0⟩ 12 op

/-- The field `kk`, bits 7 to 0 (R91). -/
def fieldKk (op : Word) : Byte := Extractor.take ⟨0x00FF#16, 0⟩ 8 op

/-- The field `x`, bits 11 to 8 (R91). -/
def fieldX (op : Word) : Reg := Extractor.take ⟨0x0F00#16, 8⟩ 4 op

/-- The field `y`, bits 7 to 4 (R91). -/
def fieldY (op : Word) : Reg := Extractor.take ⟨0x00F0#16, 4⟩ 4 op

/-- The field `n`, bits 3 to 0 (R91). -/
def fieldN (op : Word) : Nibble := Extractor.take ⟨0x000F#16, 0⟩ 4 op

/-- An instruction record (R93): mask, match, and the instruction its identifier and extractors give. -/
structure Record where
  mask  : Word
  pattern : Word
  build : Word → Instr

/-- A record of format Z, no argument (R93). -/
def recZ (m : Word) (i : Instr) : Record := ⟨0xFFFF#16, m, fun _ => i⟩

/-- A record of format A, argument `nnn` (R93). -/
def recA (m : Word) (f : Addr12 → Instr) : Record := ⟨0xF000#16, m, fun op => f (fieldNnn op)⟩

/-- A record of format XB, arguments `x`, `kk` (R93). -/
def recXB (m : Word) (f : Reg → Byte → Instr) : Record := ⟨0xF000#16, m, fun op => f (fieldX op) (fieldKk op)⟩

/-- A record of format XY, arguments `x`, `y` (R93). -/
def recXY (m : Word) (f : Reg → Reg → Instr) : Record := ⟨0xF00F#16, m, fun op => f (fieldX op) (fieldY op)⟩

/-- A record of format XYN, arguments `x`, `y`, `n` (R93). -/
def recXYN (m : Word) (f : Reg → Reg → Nibble → Instr) : Record :=
  ⟨0xF000#16, m, fun op => f (fieldX op) (fieldY op) (fieldN op)⟩

/-- A record of format X, argument `x` (R93). -/
def recX (m : Word) (f : Reg → Instr) : Record := ⟨0xF0FF#16, m, fun op => f (fieldX op)⟩

/-- Rows 1 to 9 of R94. -/
def catalogLow : List Record :=
  [recZ 0x00E0#16 .cls, recZ 0x00EE#16 .ret, recA 0x1000#16 .jp, recA 0x2000#16 .call,
   recXB 0x3000#16 .seByte, recXB 0x4000#16 .sneByte, recXY 0x5000#16 .seReg,
   recXB 0x6000#16 .ldByte, recXB 0x7000#16 .addByte]

/-- Rows 10 to 18 of R94. -/
def catalogAlu : List Record :=
  [recXY 0x8000#16 .ldReg, recXY 0x8001#16 .orReg, recXY 0x8002#16 .andReg, recXY 0x8003#16 .xorReg,
   recXY 0x8004#16 .addReg, recXY 0x8005#16 .subReg, recXY 0x8006#16 .shr, recXY 0x8007#16 .subnReg,
   recXY 0x800E#16 .shl]

/-- Rows 19 to 25 of R94. -/
def catalogMid : List Record :=
  [recXY 0x9000#16 .sneReg, recA 0xA000#16 .ldI, recA 0xB000#16 .jpV0, recXB 0xC000#16 .rnd,
   recXYN 0xD000#16 .drw, recX 0xE09E#16 .skp, recX 0xE0A1#16 .sknp]

/-- Rows 26 to 34 of R94. -/
def catalogHigh : List Record :=
  [recX 0xF007#16 .ldVxDT, recX 0xF00A#16 .ldVxK, recX 0xF015#16 .ldDTVx, recX 0xF018#16 .ldSTVx,
   recX 0xF01E#16 .addIVx, recX 0xF029#16 .ldFVx, recX 0xF033#16 .ldBVx, recX 0xF055#16 .storeRegs,
   recX 0xF065#16 .loadRegs]

/-- The catalog in its fixed priority order (R94). -/
def catalog : List Record := catalogLow ++ (catalogAlu ++ (catalogMid ++ catalogHigh))

/-- The record matches the opcode: `(opcode AND mask) == pattern` (R95). -/
def Record.hits (r : Record) (op : Word) : Bool := op &&& r.mask == r.pattern

/-- The first match of a list of records, `none` for `NotFound` (R95). -/
def firstMatch (op : Word) : List Record → Option Instr
  | [] => none
  | r :: rs => if r.hits op then some (r.build op) else firstMatch op rs

/-- `decode(op)`: total on all 65536 opcodes, `none` for `NotFound` (R95). -/
def decode (op : Word) : Option Instr := firstMatch op catalog

/-- Two consecutive bytes composed big-endian: `Mem[addr] * 256 + Mem[addr + 1]` (20 R63). -/
def bigEndian (hi lo : Byte) : Word := trunc16 (hi.toNat * 256 + lo.toNat)

/-- Why bytes are no instruction. -/
inductive Reject
  /-- Fewer than two bytes are left. -/
  | truncated
  /-- No record matches: an illegal opcode (R98). -/
  | notFound (op : Word)
  deriving DecidableEq, Repr

/-- The instruction the first two bytes hold and the bytes after it, or why there is none. -/
def decodeBytes : List Byte → Except Reject (Instr × List Byte)
  | hi :: lo :: rest =>
    match decode (bigEndian hi lo) with
    | some i => .ok (i, rest)
    | none => .error (.notFound (bigEndian hi lo))
  | [_] => .error .truncated
  | [] => .error .truncated

/-- The high byte of an opcode, bits 15 to 8 (R90). -/
def highByte (op : Word) : Byte := trunc8 (op.toNat / 256)

/-- The low byte of an opcode, bits 7 to 0 (R90). -/
def lowByte (op : Word) : Byte := trunc8 op.toNat

/-- The host's question: the instruction the decoder reads from the opcode-table word `w` of `nbits` bits, laid out as the
hardware stores it, high byte first (20 R64). -/
def decodeTableWord (nbits w : Nat) : Option Instr :=
  let op : Word := BitVec.ofNat 16 (w % 2 ^ nbits)
  match decodeBytes [highByte op, lowByte op] with
  | .ok (i, _) => some i
  | .error _ => none

/-- The word `high x low` of a format-X or XB row: nibbles `n3`, `n2`, then a byte (00 R8, R93). -/
def wordX (high : Nibble) (x : Reg) (low : Byte) : Word := trunc16 (high.toNat * 4096 + x.toNat * 256 + low.toNat)

/-- The word `high x y low` of a format-XY or XYN row, nibble by nibble (00 R8, R93). -/
def wordXY (high : Nibble) (x y : Reg) (low : Nibble) : Word :=
  trunc16 (high.toNat * 4096 + x.toNat * 256 + y.toNat * 16 + low.toNat)

/-- The word `high nnn` of a format-A row (00 R8, R93). -/
def wordA (high : Nibble) (nnn : Addr12) : Word := trunc16 (high.toNat * 4096 + nnn.toNat)

/-- The word of an instruction, written from the opcode layouts of R93 and the patterns of R94. -/
def encode : Instr → Word
  | .cls => 0x00E0#16
  | .ret => 0x00EE#16
  | .jp nnn => wordA 0x1#4 nnn
  | .call nnn => wordA 0x2#4 nnn
  | .seByte x kk => wordX 0x3#4 x kk
  | .sneByte x kk => wordX 0x4#4 x kk
  | .seReg x y => wordXY 0x5#4 x y 0x0#4
  | .ldByte x kk => wordX 0x6#4 x kk
  | .addByte x kk => wordX 0x7#4 x kk
  | .ldReg x y => wordXY 0x8#4 x y 0x0#4
  | .orReg x y => wordXY 0x8#4 x y 0x1#4
  | .andReg x y => wordXY 0x8#4 x y 0x2#4
  | .xorReg x y => wordXY 0x8#4 x y 0x3#4
  | .addReg x y => wordXY 0x8#4 x y 0x4#4
  | .subReg x y => wordXY 0x8#4 x y 0x5#4
  | .shr x y => wordXY 0x8#4 x y 0x6#4
  | .subnReg x y => wordXY 0x8#4 x y 0x7#4
  | .shl x y => wordXY 0x8#4 x y 0xE#4
  | .sneReg x y => wordXY 0x9#4 x y 0x0#4
  | .ldI nnn => wordA 0xA#4 nnn
  | .jpV0 nnn => wordA 0xB#4 nnn
  | .rnd x kk => wordX 0xC#4 x kk
  | .drw x y n => wordXY 0xD#4 x y n
  | .skp x => wordX 0xE#4 x 0x9E#8
  | .sknp x => wordX 0xE#4 x 0xA1#8
  | .ldVxDT x => wordX 0xF#4 x 0x07#8
  | .ldVxK x => wordX 0xF#4 x 0x0A#8
  | .ldDTVx x => wordX 0xF#4 x 0x15#8
  | .ldSTVx x => wordX 0xF#4 x 0x18#8
  | .addIVx x => wordX 0xF#4 x 0x1E#8
  | .ldFVx x => wordX 0xF#4 x 0x29#8
  | .ldBVx x => wordX 0xF#4 x 0x33#8
  | .storeRegs x => wordX 0xF#4 x 0x55#8
  | .loadRegs x => wordX 0xF#4 x 0x65#8

end Sys2Proof
end

