-- ==== Sys2Proof/Machine/Boot.lean ====
section
/-! DEFINITION. The configuration a machine has after power-on: the one the host supplies (spec/00_scope.md R5,
spec/70_reset_and_hazards.md R303 (1)), with the default font (spec/20_memory.md R68). -/

namespace Sys2Proof.Machine

/-- Glyphs 0 to 7 of the font, five bytes each (20 R68). -/
def glyphsLow : List (List Byte) :=
  [[0xF0#8, 0x90#8, 0x90#8, 0x90#8, 0xF0#8], [0x20#8, 0x60#8, 0x20#8, 0x20#8, 0x70#8],
   [0xF0#8, 0x10#8, 0xF0#8, 0x80#8, 0xF0#8], [0xF0#8, 0x10#8, 0xF0#8, 0x10#8, 0xF0#8],
   [0x90#8, 0x90#8, 0xF0#8, 0x10#8, 0x10#8], [0xF0#8, 0x80#8, 0xF0#8, 0x10#8, 0xF0#8],
   [0xF0#8, 0x80#8, 0xF0#8, 0x90#8, 0xF0#8], [0xF0#8, 0x10#8, 0x20#8, 0x40#8, 0x40#8]]

/-- Glyphs 8 to F of the font (20 R68). -/
def glyphsHigh : List (List Byte) :=
  [[0xF0#8, 0x90#8, 0xF0#8, 0x90#8, 0xF0#8], [0xF0#8, 0x90#8, 0xF0#8, 0x10#8, 0xF0#8],
   [0xF0#8, 0x90#8, 0xF0#8, 0x90#8, 0x90#8], [0xE0#8, 0x90#8, 0xE0#8, 0x90#8, 0xE0#8],
   [0xF0#8, 0x80#8, 0x80#8, 0x80#8, 0xF0#8], [0xE0#8, 0x90#8, 0x90#8, 0x90#8, 0xE0#8],
   [0xF0#8, 0x80#8, 0xF0#8, 0x80#8, 0xF0#8], [0xF0#8, 0x80#8, 0xF0#8, 0x80#8, 0x80#8]]

/-- The default of `FONT_DATA`: the customary font, which the spec supplies (20 R68, G2). UNVERIFIED:
notes/assumptions/10.md. -/
def fontData : List Byte := (glyphsLow ++ glyphsHigh).flatten

/-- The default font as a value of the parameter, 80 bytes. -/
def standardFont : Vector Byte fontSize := ⟨fontData.toArray, rfl⟩

/-- The configuration of `State.reset`: the default font (20 R68), and beside it the parameters the host supplies, a
constant without a body (DESIGN CHOICE, safe: notes/assumptions/4.md). Any state may hold another font in `cfg`. -/
def bootConfig : Config := { Config.supplied with font := standardFont }

end Sys2Proof.Machine
end

