-- ==== Sys2Proof/Machine/State.lean ====
section
/-! DEFINITION. The state of the machine (spec/10_state.md), its fault record (spec/60_exceptions.md R276), the reasons
a step may stop, and the state after reset (R43). -/

namespace Sys2Proof.Machine

/-- Memory as the list of the cells that differ from the reset contents, in the canonical form `Memory.wf` of Ops.lean
(20 R60, R67). -/
abbrev Memory := List Host.Cell

/-- The display grid, `px[x][y]` with column `x` and row `y` (10 R34). -/
abbrev Grid := Vector (Vector Bool 32) 64

/-- Whether an out-of-bounds access was a read or a write (60 R276). -/
inductive AccessKind
  | read
  | write
  deriving DecidableEq, Repr

/-- The condition's name and own value in a fault record: the four fatal conditions a step can raise (60 R270, R276). -/
inductive FaultCause
  /-- 60 R271: the out-of-range address, the bound `MEM_SIZE`, read or write. -/
  | outOfBoundsAccess (addr bound : Nat) (kind : AccessKind)
  /-- 60 R272: the depth `STACK_DEPTH`. -/
  | stackOverflow (depth : Nat)
  /-- 60 R273. -/
  | stackUnderflow
  /-- 60 R274: the opcode and address are the record's own. -/
  | unknownOpcode
  deriving DecidableEq, Repr

/-- The fault record (60 R276): the condition, the address `a` of the faulting instruction, and its opcode when the
fetch succeeded. -/
structure FaultRecord where
  cause : FaultCause
  addr  : Word
  op    : Option Word
  deriving DecidableEq, Repr

/-- Reasons a step stops outside the state. There is none: a fatal condition of the spec is itself a state, the
latch `fault` with the run state `Halted` (60 R275, R278), and is taken as a next state (notes/assumptions/1.md). -/
inductive Fault
  deriving DecidableEq, Repr

/-- Reasons an instruction is refused. -/
inductive Refusal
  /-- Raised by `exec` for an instruction that has no meaning yet; no arm does. Safe: the model stops. -/
  | notModelled (mnemonic : String)
  deriving DecidableEq, Repr

/-- The state (10 R20 to R36, R39). The last two fields are the model's own. -/
structure State where
  /-- General registers `V[0]` to `V[15]` (R20, R21). -/
  V          : Vector Byte 16
  /-- Index register (R22). -/
  I          : Word
  /-- Program counter (R23). -/
  pc         : Word
  /-- Number of live stack entries (R25). -/
  sp         : Fin 17
  /-- Call stack; entries at `sp` and above are dead (R24). -/
  stack      : Vector Word 16
  /-- Delay timer (R28). -/
  DT         : Byte
  /-- Sound timer (R29). -/
  ST         : Byte
  /-- Memory (R39, 20 R60). -/
  mem        : Memory
  /-- Pressed state of the 16 keys (R33). -/
  keys       : Vector Bool 16
  /-- The display grid (R34). -/
  px         : Grid
  /-- User pause and key wait (R30). -/
  paused     : Bool
  /-- The armed key wait and its destination register (R31). -/
  waitKey    : Option Reg
  /-- The fault latch (R32). -/
  fault      : Option FaultRecord
  /-- Set by `DRW` and `CLS`, cleared at the end of a cycle (R35). -/
  frameDirty : Bool
  /-- The sound level, set at the end of a cycle (R36). -/
  soundOn    : Bool
  /-- The model's own: random bytes consumed so far, the index of the next free byte (45 R220). -/
  draws      : Nat
  /-- The model's own: the configuration, constant during a run (00 R5). -/
  cfg        : Config
  deriving DecidableEq, Repr

/-- One step's outcome. -/
abbrev Result := Host.Outcome State Fault Refusal

/-- The machine after power-on, which performs a `Reset` with all keys up (10 R43, 70 R300, R301). The spec gives
`pc`, `sp`, `paused`, memory and `px`; the zeros of `V`, `I`, `DT`, `ST` are its decision D5 (notes/assumptions/2.md),
the stack entries are dead (3.md), the keys are D26 (6.md), `draws` and `cfg` are the model's (5.md, 4.md). -/
def State.reset : State where
  V          := Vector.replicate 16 0#8
  I          := 0#16
  pc         := BitVec.ofNat 16 loadAddr
  sp         := 0
  stack      := Vector.replicate 16 0#16
  DT         := 0#8
  ST         := 0#8
  mem        := []
  keys       := Vector.replicate 16 false
  px         := Vector.replicate 64 (Vector.replicate 32 false)
  paused     := true
  waitKey    := none
  fault      := none
  frameDirty := false
  soundOn    := false
  draws      := 0
  cfg        := bootConfig

end Sys2Proof.Machine
end

