-- ==== Sys2Proof/Machine/Ops.lean ====
section
/-! DEFINITION. The named operations over memory, registers, stack and display grid (spec/00_scope.md R9), and taking a
fatal condition (spec/60_exceptions.md R275). -/

namespace Sys2Proof.Machine

/-! ### Memory (20) -/

/-- What an address reads as when no cell lists it, its reset contents under the default font: the font from `FONT_BASE`
on, 0 elsewhere (20 R67, 70 R301). -/
def Memory.resetByte (addr : Nat) : Byte := if addr < fontBase then 0#8 else fontData.getD (addr - fontBase) 0#8

/-- `Mem[addr]`. -/
def Memory.byteAt : Memory → Nat → Byte
  | [], addr => Memory.resetByte addr
  | (b, w) :: m, addr => if b = addr then w else Memory.byteAt m addr

/-- A cell put in front of a memory, unless it says what the unlisted address reads as. -/
def Memory.put (addr : Nat) (v : Byte) (m : Memory) : Memory :=
  if v = Memory.resetByte addr then m else (addr, v) :: m

/-- `Mem[addr] <- v`, keeping the canonical form. -/
def Memory.store : Memory → Nat → Byte → Memory
  | [], addr, v => Memory.put addr v []
  | (b, w) :: m, addr, v =>
    if addr < b then Memory.put addr v ((b, w) :: m)
    else if addr = b then Memory.put addr v m
    else (b, w) :: Memory.store m addr v

/-- The canonical form: addresses strictly rising and below `MEM_SIZE`, no cell equal to what its address reads as
when unlisted. -/
abbrev Memory.wf (m : Memory) : Prop :=
  m.Pairwise (fun c d => c.1 < d.1) ∧ ∀ c ∈ m, c.1 < memSize ∧ c.2 ≠ Memory.resetByte c.1

/-- `MemRead(addr, 1)`: the byte, or the out-of-range address that raises `OutOfBoundsAccess` (20 R61). -/
def memRead (m : Memory) (addr : Nat) : Except Nat Byte :=
  if addr < memSize then .ok (m.byteAt addr) else .error addr

/-- `MemWrite(addr, 1, v)`: the new memory, or the out-of-range address (20 R62). -/
def memWrite (m : Memory) (addr : Nat) (v : Byte) : Except Nat Memory :=
  if addr < memSize then .ok (m.store addr v) else .error addr

/-- `Fetch16(addr)`: two consecutive bytes big-endian, or the first out-of-range address (20 R63, R72). -/
def fetch16 (m : Memory) (addr : Nat) : Except Nat Word :=
  match memRead m addr with
  | .error bad => .error bad
  | .ok hi =>
    match memRead m (addr + 1) with
    | .error bad => .error bad
    | .ok lo => .ok (bigEndian hi lo)

/-- Reads of `n` consecutive bytes from `addr` up, stopping at the first out-of-range address (44 R206, 46 R232). -/
def readBytes (m : Memory) (addr : Nat) : Nat → Except Nat (List Byte)
  | 0 => .ok []
  | n + 1 =>
    match memRead m addr with
    | .error bad => .error bad
    | .ok b =>
      match readBytes m (addr + 1) n with
      | .error bad => .error bad
      | .ok bs => .ok (b :: bs)

/-- Writes of consecutive bytes from `addr` up, stopping at the first out-of-range address; the memory of a stopped
write is dropped (44 R203, R205; 60 R275). -/
def writeBytes (m : Memory) (addr : Nat) : List Byte → Except Nat Memory
  | [] => .ok m
  | b :: bs =>
    match memWrite m addr b with
    | .error bad => .error bad
    | .ok m' => writeBytes m' (addr + 1) bs

/-- The bytes of a program image put at consecutive addresses (20 R69). -/
def placeBytes (m : Memory) (addr : Nat) : List Byte → Memory
  | [] => m
  | b :: bs => placeBytes (m.store addr b) (addr + 1) bs

/-- Memory after a `Reset` that installs `font`: zero everywhere but for the font's bytes from `FONT_BASE` on (20 R68,
70 R301). With the default font nothing is listed. -/
def fontMemory (font : Vector Byte fontSize) : Memory := placeBytes [] fontBase font.toList

/-! ### Registers (10) -/

/-- `V[x]` (10 R20). -/
def State.reg (s : State) (x : Reg) : Byte := s.V[x.toNat]'x.isLt

/-- `V[x] <- v` (10 R20). -/
def State.setReg (s : State) (x : Reg) (v : Byte) : State := { s with V := s.V.set x.toNat v x.isLt }

/-- `I <- v` (10 R22). -/
def State.setI (s : State) (v : Word) : State := { s with I := v }

/-- `pc <- v` (10 R23). -/
def State.setPc (s : State) (v : Word) : State := { s with pc := v }

/-- `DT <- v` (10 R28). -/
def State.setDT (s : State) (v : Byte) : State := { s with DT := v }

/-- `ST <- v` (10 R29). -/
def State.setST (s : State) (v : Byte) : State := { s with ST := v }

/-- Memory after the stores of an instruction. -/
def State.setMem (s : State) (m : Memory) : State := { s with mem := m }

/-- The grid after a clear or a draw, the frame marked dirty (10 R35, 46 R231, R232). -/
def State.setGrid (s : State) (g : Grid) : State := { s with px := g, frameDirty := true }

/-- The key wait armed for register `x` (47 R250). -/
def State.armWait (s : State) (x : Reg) : State := { s with waitKey := some x, paused := true }

/-- One random byte consumed (45 R220). -/
def State.countDraw (s : State) : State := { s with draws := s.draws + 1 }

/-- `advance()`: `pc <- trunc16(pc + 2)` (41 R150). -/
def advance (s : State) : State := s.setPc (trunc16 (s.pc.toNat + 2))

/-- The flag first, the destination last: with `x = 15` the result lands on the flag (42 R170). -/
def setFlagThenReg (s : State) (flag : Byte) (x : Reg) (result : Byte) : State := (s.setReg VF flag).setReg x result

/-- `V[j], V[j+1], … <- bytes`, ascending (44 R206). -/
def setRegsFrom (v : Vector Byte 16) (j : Nat) : List Byte → Vector Byte 16
  | [] => v
  | b :: bs => setRegsFrom (v.setIfInBounds j b) (j + 1) bs

/-! ### The call stack (10 R24 to R27) -/

/-- `push(a)`, `none` when the stack is full (10 R26). -/
def push (s : State) (a : Word) : Option State :=
  if h : s.sp.val < 16 then
    some { s with stack := s.stack.set s.sp.val a h, sp := ⟨s.sp.val + 1, by omega⟩ }
  else none

/-- `pop()`, the popped entry and the state after it, `none` when the stack is empty (10 R27). -/
def pop (s : State) : Option (Word × State) :=
  if h : s.sp.val = 0 then none
  else
    have hs := s.sp.isLt
    some (s.stack[s.sp.val - 1]'(by omega), { s with sp := ⟨s.sp.val - 1, by omega⟩ })

/-! ### Run state (10 R37) -/

/-- The interpreter's states (10 R37). -/
inductive RunState
  | running
  | paused
  | waitingForKey
  | halted
  deriving DecidableEq, Repr

/-- The run state, a function of `fault`, `waitKey` and `paused` (10 R37). -/
def State.runState (s : State) : RunState :=
  if s.fault.isSome then .halted
  else if s.waitKey.isSome then .waitingForKey
  else if s.paused then .paused
  else .running

/-! ### Taking a fatal condition (60) -/

/-- `raise F(info)` for the instruction at `a` with opcode `op` when it was fetched: nothing but the latch changes,
and `pc` is `a` (60 R275, R276). -/
def raiseAt (a : Word) (op : Option Word) (c : FaultCause) (s : State) : State :=
  { s with pc := a, fault := some ⟨c, a, op⟩ }

/-- `raise` inside the meaning of instruction `i`, which runs with `pc` already advanced: the address is `a = pc - 2`
(41, template) and the opcode the instruction's own word. DEDUCED: notes/assumptions/19.md. -/
def raise (i : Instr) (c : FaultCause) (s : State) : Result :=
  .next (raiseAt (s.pc - 2#16) (some (encode i)) c s)

/-- `raise OutOfBoundsAccess(addr)` (60 R271). -/
def raiseBounds (i : Instr) (kind : AccessKind) (bad : Nat) (s : State) : Result :=
  raise i (.outOfBoundsAccess bad memSize kind) s

/-- The reference number of a condition (60 R270). -/
def FaultCause.code : FaultCause → Nat
  | .outOfBoundsAccess _ _ _ => 1
  | .stackOverflow _ => 2
  | .stackUnderflow => 3
  | .unknownOpcode => 4

/-! ### The display grid (46) -/

/-- Every pixel unlit (46 R231). -/
def blankGrid : Grid := Vector.replicate 64 (Vector.replicate 32 false)

/-- `px[x mod DISP_W][y mod DISP_H]` (46 R230). -/
def Grid.pixel (g : Grid) (x y : Nat) : Bool :=
  (g[x % dispW]'(Nat.mod_lt x (by decide)))[y % dispH]'(Nat.mod_lt y (by decide))

/-- The linear index of a cell, which only a renderer needs (10 R34, D29). -/
def linearIndex (x y : Nat) : Nat := x + y * dispW

/-- The cell a linear index names. -/
def Grid.cell (g : Grid) (k : Nat) : Bool := g.pixel (k % dispW) (k / dispW)

/-- The grid with one pixel written. -/
def Grid.setTo (g : Grid) (x y : Nat) (lit : Bool) : Grid :=
  g.set (x % dispW) ((g[x % dispW]'(Nat.mod_lt x (by decide))).set (y % dispH) lit (Nat.mod_lt y (by decide)))
    (Nat.mod_lt x (by decide))

/-- `setPixel(x, y)`: toggles one pixel, and tells whether it was lit (46 R230). -/
def setPixel (g : Grid) (x y : Nat) : Grid × Bool := (g.setTo x y (!g.pixel x y), g.pixel x y)

end Sys2Proof.Machine
end

