-- ==== Sys2Proof/Machine/Operands.lean ====
section
/-! DEFINITION. Operand forms: how each instruction's source, address or target is computed from registers and fields. -/

namespace Sys2Proof.Machine

/-- A 12-bit address used zero-extended to 16 bits (30 R91, R92). -/
def zext16 (nnn : Addr12) : Word := nnn.setWidth 16

/-- The effective address `I + k`, an unbounded integer (20 R72, 44 R207). -/
def effectiveAddr (s : State) (k : Nat) : Nat := s.I.toNat + k

/-- The target of `JP V0, addr`: `trunc16(nnn + V[0])`, not reduced modulo 4096 (41 R154). -/
def jumpV0Target (s : State) (nnn : Addr12) : Word := trunc16 (nnn.toNat + (s.reg 0#4).toNat)

/-- `pressed <- (k ≤ 15) and keys[k]`: a symbol above 15 is not pressed (41 R159, R160, D20). -/
def keyPressed (s : State) (k : Byte) : Bool :=
  if h : k.toNat < 16 then s.keys[k.toNat]'h else false

/-- The operand of both shifts: `V[y]` or `V[x]` (43 R190). -/
def shiftSource (mode : ShiftMode) (vx vy : Byte) : Byte :=
  match mode with
  | .shiftVy => vy
  | .shiftVxInPlace => vx

/-- What a block transfer with field `x` leaves in `I` (44 R204). -/
def indexAfter (mode : IndexMode) (i0 : Word) (x : Reg) : Word :=
  match mode with
  | .unchanged => i0
  | .incByX => trunc16 (i0.toNat + x.toNat)
  | .incByXPlus1 => trunc16 (i0.toNat + x.toNat + 1)

/-- `trunc16(I + V[x])` (44 R201). -/
def indexPlusReg (i0 : Word) (vx : Byte) : Word := trunc16 (i0.toNat + vx.toNat)

/-- The address of the font glyph of a byte: `V[x] * 5` (44 R202). -/
def glyphAddr (vx : Byte) : Word := trunc16 (vx.toNat * 5)

/-- The hundreds, tens and ones digits of a byte (44 R203). -/
def bcdDigits (v : Byte) : List Byte :=
  [trunc8 (v.toNat / 100), trunc8 (v.toNat / 10 % 10), trunc8 (v.toNat % 10)]

/-- `V[0]` to `V[x]`, register 0 first (44 R205). -/
def regsUpTo (s : State) (x : Reg) : List Byte := s.V.toList.take (x.toNat + 1)

/-- Column `c` of a sprite row is bit `7 - c`: bit 7 is the leftmost pixel (46 R233, D27). -/
def spriteBit (row : Byte) (c : Nat) : Bool := row.getLsbD (7 - c)

end Sys2Proof.Machine
end

