-- ==== Sys2Proof/Machine/Flags.lean ====
section
/-! DEFINITION. The 8-bit results and the values written to `VF` (spec/10_state.md R21): each is computed from the
operands as unbounded integers, then truncated (42 R170, R180). -/

namespace Sys2Proof.Machine

/-- A flag is written as the byte 0x00 or 0x01 (42 R177). -/
def flagByte (b : Bool) : Byte := if b then 0x01#8 else 0x00#8

/-- `trunc8(a + b)` (42 R172, R177). -/
def addResult (a b : Byte) : Byte := trunc8 (a.toNat + b.toNat)

/-- Carry: 1 if `a + b > 255` (42 R177). -/
def carryFlag (a b : Byte) : Byte := flagByte (decide (255 < a.toNat + b.toNat))

/-- `trunc8(a - b + 256)` (42 R178, R179). -/
def subResult (a b : Byte) : Byte := trunc8 (a.toNat + 256 - b.toNat)

/-- Not borrow of `a - b`: 1 if `a ≥ b` (42 R178, R179). -/
def notBorrowFlag (a b : Byte) : Byte := flagByte (decide (b.toNat ≤ a.toNat))

/-- `src >> 1` (43 R191). -/
def shrResult (src : Byte) : Byte := src >>> 1

/-- `src[0]`, the bit `SHR` shifts out (43 R191). -/
def shrFlag (src : Byte) : Byte := flagByte (src.getLsbD 0)

/-- `trunc8(src << 1)` (43 R192). -/
def shlResult (src : Byte) : Byte := trunc8 (src.toNat * 2)

/-- `src[7]`, the bit `SHL` shifts out (43 R192). -/
def shlFlag (src : Byte) : Byte := flagByte (src.getLsbD 7)

/-- Collision: 1 if any pixel was erased (46 R232). -/
def collisionFlag (erased : Bool) : Byte := flagByte erased

end Sys2Proof.Machine
end

