-- ==== Sys2Proof/Machine/Alu.lean ====
section
/-! DEFINITION. Register loads and the 8-bit ALU (spec/42_load_alu.md). Operands are read before anything is written
(R170); only ADD, SUB and SUBN on two registers write the flag. -/

namespace Sys2Proof.Machine

/-- LD Vx, byte (42 R171). -/
def execLdByte (x : Reg) (kk : Byte) (s : State) : Result := .next (s.setReg x kk)

/-- ADD Vx, byte; no flag (42 R172). -/
def execAddByte (x : Reg) (kk : Byte) (s : State) : Result := .next (s.setReg x (addResult (s.reg x) kk))

/-- LD Vx, Vy (42 R173). -/
def execLdReg (x y : Reg) (s : State) : Result := .next (s.setReg x (s.reg y))

/-- OR Vx, Vy; no flag (42 R174). -/
def execOrReg (x y : Reg) (s : State) : Result := .next (s.setReg x (s.reg x ||| s.reg y))

/-- AND Vx, Vy; no flag (42 R175). -/
def execAndReg (x y : Reg) (s : State) : Result := .next (s.setReg x (s.reg x &&& s.reg y))

/-- XOR Vx, Vy; no flag (42 R176). -/
def execXorReg (x y : Reg) (s : State) : Result := .next (s.setReg x (s.reg x ^^^ s.reg y))

/-- ADD Vx, Vy (42 R177). -/
def execAddReg (x y : Reg) (s : State) : Result :=
  .next (setFlagThenReg s (carryFlag (s.reg x) (s.reg y)) x (addResult (s.reg x) (s.reg y)))

/-- SUB Vx, Vy (42 R178). -/
def execSubReg (x y : Reg) (s : State) : Result :=
  .next (setFlagThenReg s (notBorrowFlag (s.reg x) (s.reg y)) x (subResult (s.reg x) (s.reg y)))

/-- SUBN Vx, Vy: `Vy - Vx` into `Vx` (42 R179). -/
def execSubnReg (x y : Reg) (s : State) : Result :=
  .next (setFlagThenReg s (notBorrowFlag (s.reg y) (s.reg x)) x (subResult (s.reg y) (s.reg x)))

end Sys2Proof.Machine
end

