-- ==== Sys2Proof/Machine/Control.lean ====
section
/-! DEFINITION. Control flow (spec/41_control_flow.md). Every meaning runs with `pc` already advanced (40 R122). -/

namespace Sys2Proof.Machine

/-- A skip: one extra `advance()` when the condition holds (41 R150). -/
def skipIf (cond : Bool) (s : State) : Result := .next (if cond then advance s else s)

/-- RET (41 R153). -/
def execRet (s : State) : Result :=
  match pop s with
  | some (a, s') => .next (s'.setPc a)
  | none => raise .ret .stackUnderflow s

/-- JP addr (41 R151). -/
def execJp (nnn : Addr12) (s : State) : Result := .next (s.setPc (zext16 nnn))

/-- CALL addr: pushes the advanced `pc` (41 R152). -/
def execCall (nnn : Addr12) (s : State) : Result :=
  match push s s.pc with
  | some s' => .next (s'.setPc (zext16 nnn))
  | none => raise (.call nnn) (.stackOverflow stackDepth) s

/-- JP V0, addr (41 R154). -/
def execJpV0 (nnn : Addr12) (s : State) : Result := .next (s.setPc (jumpV0Target s nnn))

/-- SE Vx, byte (41 R155). -/
def execSeByte (x : Reg) (kk : Byte) (s : State) : Result := skipIf (s.reg x == kk) s

/-- SNE Vx, byte (41 R156). -/
def execSneByte (x : Reg) (kk : Byte) (s : State) : Result := skipIf (s.reg x != kk) s

/-- SE Vx, Vy (41 R157). -/
def execSeReg (x y : Reg) (s : State) : Result := skipIf (s.reg x == s.reg y) s

/-- SNE Vx, Vy (41 R158). -/
def execSneReg (x y : Reg) (s : State) : Result := skipIf (s.reg x != s.reg y) s

/-- SKP Vx (41 R159). -/
def execSkp (x : Reg) (s : State) : Result := skipIf (keyPressed s (s.reg x)) s

/-- SKNP Vx (41 R160). -/
def execSknp (x : Reg) (s : State) : Result := skipIf (!keyPressed s (s.reg x)) s

end Sys2Proof.Machine
end

