-- ==== Sys2Proof/Machine/Display.lean ====
section
/-! DEFINITION. Display instructions (spec/46_display.md). -/

namespace Sys2Proof.Machine

/-- CLS (46 R231). -/
def execCls (s : State) : Result := .next (s.setGrid blankGrid)

/-- One column of a sprite row: a 1 bit calls `setPixel`, a 0 bit leaves its pixel alone (46 R232, R233, D38). The
Boolean tells whether any pixel was erased so far. -/
def drawColumn (row : Byte) (x y : Nat) (acc : Grid × Bool) (c : Nat) : Grid × Bool :=
  if spriteBit row c then
    let (g, erased) := setPixel acc.1 (x + c) y
    (g, acc.2 || erased)
  else acc

/-- One sprite row, columns 0 to 7 ascending (46 R232). -/
def drawRow (row : Byte) (x y : Nat) (acc : Grid × Bool) : Grid × Bool :=
  [0, 1, 2, 3, 4, 5, 6, 7].foldl (drawColumn row x y) acc

/-- The rows of a sprite, going down the screen (46 R232, R233). -/
def drawRows : List Byte → Nat → Nat → Grid × Bool → Grid × Bool
  | [], _, _, acc => acc
  | row :: rows, x, y, acc => drawRows rows x (y + 1) (drawRow row x y acc)

/-- The grid and the erase report of a whole sprite at column `x`, row `y` (46 R232). -/
def drawSprite (rows : List Byte) (x y : Nat) (g : Grid) : Grid × Bool := drawRows rows x y (g, false)

/-- DRW Vx, Vy, nibble: position and sprite are read before `VF` is written (46 R232, D10). -/
def execDrw (x y : Reg) (n : Nibble) (s : State) : Result :=
  match readBytes s.mem (effectiveAddr s 0) n.toNat with
  | .ok rows =>
    let drawn := drawSprite rows (s.reg x).toNat (s.reg y).toNat s.px
    .next ((s.setReg VF (collisionFlag drawn.2)).setGrid drawn.1)
  | .error bad => raiseBounds (.drw x y n) .read bad s

end Sys2Proof.Machine
end

