-- ==== Sys2Proof/Machine/Index.lean ====
section
/-! DEFINITION. The index register and the memory transfers (spec/44_index_memory.md). A transfer that leaves memory
raises `OutOfBoundsAccess` with the lowest out-of-range address and writes nothing (60 R271, R275). -/

namespace Sys2Proof.Machine

/-- LD I, addr (44 R200). -/
def execLdI (nnn : Addr12) (s : State) : Result := .next (s.setI (zext16 nnn))

/-- ADD I, Vx; no flag (44 R201). -/
def execAddIVx (x : Reg) (s : State) : Result := .next (s.setI (indexPlusReg s.I (s.reg x)))

/-- LD F, Vx (44 R202). -/
def execLdFVx (x : Reg) (s : State) : Result := .next (s.setI (glyphAddr (s.reg x)))

/-- LD B, Vx (44 R203). -/
def execLdBVx (x : Reg) (s : State) : Result :=
  match writeBytes s.mem (effectiveAddr s 0) (bcdDigits (s.reg x)) with
  | .ok m => .next (s.setMem m)
  | .error bad => raiseBounds (.ldBVx x) .write bad s

/-- LD [I], Vx (44 R205). -/
def execStoreRegs (x : Reg) (s : State) : Result :=
  match writeBytes s.mem (effectiveAddr s 0) (regsUpTo s x) with
  | .ok m => .next ((s.setMem m).setI (indexAfter s.cfg.indexMode s.I x))
  | .error bad => raiseBounds (.storeRegs x) .write bad s

/-- The state with `V[0], V[1], …` loaded from a list of bytes (44 R206). -/
def State.loadLow (s : State) (bytes : List Byte) : State := { s with V := setRegsFrom s.V 0 bytes }

/-- LD Vx, [I] (44 R206). -/
def execLoadRegs (x : Reg) (s : State) : Result :=
  match readBytes s.mem (effectiveAddr s 0) (x.toNat + 1) with
  | .ok bytes => .next ((s.loadLow bytes).setI (indexAfter s.cfg.indexMode s.I x))
  | .error bad => raiseBounds (.loadRegs x) .read bad s

end Sys2Proof.Machine
end

