-- ==== Sys2Proof/Machine/Keys.lean ====
section
/-! DEFINITION. Key wait and timer instructions (spec/47_keys_timers.md). -/

namespace Sys2Proof.Machine

/-- LD Vx, DT (47 R251). -/
def execLdVxDT (x : Reg) (s : State) : Result := .next (s.setReg x s.DT)

/-- LD Vx, K: arms the key wait; the register is written at the key release (47 R250). -/
def execLdVxK (x : Reg) (s : State) : Result := .next (s.armWait x)

/-- LD DT, Vx (47 R252). -/
def execLdDTVx (x : Reg) (s : State) : Result := .next (s.setDT (s.reg x))

/-- LD ST, Vx (47 R253). -/
def execLdSTVx (x : Reg) (s : State) : Result := .next (s.setST (s.reg x))

end Sys2Proof.Machine
end

