-- ==== Sys2Proof/Machine/Random.lean ====
section
/-! DEFINITION. Random number (spec/45_random.md). -/

namespace Sys2Proof.Machine

/-- `draw_u8()`: the free byte of this draw (45 R220). -/
def drawByte (s : State) : Byte := Config.randomByte s.draws

/-- RND Vx, byte (45 R221). -/
def execRnd (x : Reg) (kk : Byte) (s : State) : Result := .next (s.countDraw.setReg x (drawByte s &&& kk))

end Sys2Proof.Machine
end

