-- ==== Sys2Proof/Machine/Shift.lean ====
section
/-! DEFINITION. Shifts under the shift quirk (spec/43_shift.md). -/

namespace Sys2Proof.Machine

/-- The operand of a shift in a state (43 R190). -/
def shiftOperand (x y : Reg) (s : State) : Byte := shiftSource s.cfg.shiftMode (s.reg x) (s.reg y)

/-- SHR Vx, Vy (43 R191). -/
def execShr (x y : Reg) (s : State) : Result :=
  .next (setFlagThenReg s (shrFlag (shiftOperand x y s)) x (shrResult (shiftOperand x y s)))

/-- SHL Vx, Vy (43 R192). -/
def execShl (x y : Reg) (s : State) : Result :=
  .next (setFlagThenReg s (shlFlag (shiftOperand x y s)) x (shlResult (shiftOperand x y s)))

end Sys2Proof.Machine
end

