-- ==== Sys2Proof/Machine/Fetch.lean ====
section
/-! DEFINITION. The front half of a step: what the machine does next (spec/40_execution_cycle.md R121, R122), and how the
host places an opcode where the next step fetches. -/

namespace Sys2Proof.Machine

/-- What a step is about to do. -/
inductive Action
  /-- Nothing: the machine is not `Running` (R121). -/
  | idle
  /-- Raise a fatal condition of the fetch or of decode; the opcode when it was fetched (60 R277). -/
  | raise (op : Option Word) (cause : FaultCause)
  /-- Run an instruction. -/
  | run (i : Instr)
  deriving DecidableEq, Repr

/-- Fetch at `pc` and decode, in the order of R122: not `Running`, then the fetch's fault, then `UnknownOpcode`. -/
def nextAction (s : State) : Action :=
  match s.runState with
  | .running =>
    match fetch16 s.mem s.pc.toNat with
    | .error bad => .raise none (.outOfBoundsAccess bad memSize .read)
    | .ok op =>
      match decode op with
      | none => .raise (some op) .unknownOpcode
      | some i => .run i
  | .paused => .idle
  | .waitingForKey => .idle
  | .halted => .idle

/-- The state in which the opcode `w` stands where the next step fetches, and the machine is `Running`: it stands for a
load from outside (notes/assumptions/7.md). Where `pc` is not an address an opcode can be fetched from (20 R63) no byte
is placed. -/
def placeOpcode (s : State) (nbits w : Nat) : State :=
  let op : Word := BitVec.ofNat 16 (w % 2 ^ nbits)
  let m := if s.pc.toNat + 1 < memSize then placeBytes s.mem s.pc.toNat [highByte op, lowByte op] else s.mem
  { s with mem := m, paused := false, waitKey := none, fault := none }

end Sys2Proof.Machine
end

