-- ==== Sys2Proof/Machine/Step.lean ====
section
/-! DEFINITION. One step (spec/40_execution_cycle.md R122). -/

namespace Sys2Proof.Machine

/-- `step()`: nothing unless `Running`; fetch, advance, decode, dispatch. A raise leaves `pc` at the instruction's own
address (60 R275). -/
def step (s : State) : Host.Outcome State Fault Refusal :=
  match nextAction s with
  | .idle => .next s
  | .raise op cause => .next (raiseAt s.pc op cause s)
  | .run i => exec i (advance s)

/-- The state whose very next step fetches and runs the opcode `w`. -/
def State.withFetchWord (s : State) (nbits w : Nat) : State := placeOpcode s nbits w

end Sys2Proof.Machine
end

