-- ==== Sys2Proof/Machine/Events.lean ====
section
/-! DEFINITION. Host events, the tick part of a cycle, and the notifications they emit (spec/40_execution_cycle.md R127 to
R133, spec/70_reset_and_hazards.md R300 to R302). -/

namespace Sys2Proof.Machine

/-- What the machine tells the host (40 R120). -/
inductive Notification
  /-- The frame changed (40 R129). -/
  | frameDirty
  /-- A step raised a fatal condition (60 R281). -/
  | fatal (r : FaultRecord)
  /-- `Fatal(RomTooLarge, length, LOAD_ADDR, MEM_SIZE)`: a load was rejected (60 R280). -/
  | romTooLarge (length loadAddress size : Nat)
  deriving DecidableEq, Repr

/-- The reference number of a fatal notification (60 R270); `FrameDirty` has none. -/
def Notification.code : Notification → Option Nat
  | .frameDirty => none
  | .fatal r => some r.cause.code
  | .romTooLarge _ _ _ => some 5

/-- `Reset`: everything but `keys`, the dead stack entries and the model's own fields (70 R301). Memory is
zero with `FONT_DATA`, a parameter, installed (20 R68). -/
def resetMachine (s : State) : State :=
  { s with
    mem := fontMemory s.cfg.font,
    V := Vector.replicate 16 0#8, I := 0#16, pc := BitVec.ofNat 16 loadAddr, sp := 0, DT := 0#8, ST := 0#8,
    px := blankGrid, frameDirty := false, soundOn := false, waitKey := none, fault := none, paused := true }

/-- Power-on: all keys up, then `Reset` (70 R300). -/
def powerOn (s : State) : State := resetMachine { s with keys := Vector.replicate 16 false }

/-- `LoadROM(bytes)`: the size check before any mutation, then `Reset`, the bytes, and `Running` (70 R302, 60 R280). -/
def loadRom (bytes : List Byte) (s : State) : State × List Notification :=
  if romFits bytes then
    let r := resetMachine s
    ({ r with mem := placeBytes r.mem loadAddr bytes, paused := false }, [])
  else (s, [.romTooLarge bytes.length loadAddr memSize])

/-- `KeyPress(k)` (40 R130). -/
def keyPress (k : Nibble) (s : State) : State := { s with keys := s.keys.set k.toNat true k.isLt }

/-- A released key ends an armed wait: the symbol into the register, the wait and the pause cleared (40 R131). -/
def endWait (k : Nibble) (s : State) : State :=
  match s.waitKey, s.fault with
  | some r, none => { s.setReg r (k.setWidth 8) with waitKey := none, paused := false }
  | some _, some _ => s
  | none, _ => s

/-- `KeyRelease(k)` (40 R131). -/
def keyRelease (k : Nibble) (s : State) : State := endWait k { s with keys := s.keys.set k.toNat false k.isLt }

/-- `HostPause` (40 R132). -/
def hostPause (s : State) : State := { s with paused := true }

/-- `HostResume`: nothing while a key wait is armed (40 R133). -/
def hostResume (s : State) : State := if s.waitKey.isSome then s else { s with paused := false }

/-- A timer one tick later: toward zero, never below (40 R127). -/
def tickTimer (t : Byte) : Byte := trunc8 (t.toNat - 1)

/-- `tickTimers()` (40 R127). -/
def tickTimers (s : State) : State := { s with DT := tickTimer s.DT, ST := tickTimer s.ST }

/-- `sound_on <- (ST ≠ 0)` (40 R128). -/
def sampleSound (s : State) : State := { s with soundOn := s.ST != 0#8 }

/-- `if frame_dirty: emit FrameDirty; frame_dirty <- false` (40 R129). -/
def reportFrame (s : State) : State × List Notification :=
  if s.frameDirty then ({ s with frameDirty := false }, [.frameDirty]) else (s, [])

/-- The timers count in this tick part: the machine is `Running`, or `TICK_WHEN_PAUSED` (40 R126, D14). -/
def timersCount (s : State) : Bool := decide (s.runState = .running) || s.cfg.tickWhenPaused

/-- The part of a cycle after its steps; nothing in `Halted` (40 R126). -/
def tickPart (s : State) : State × List Notification :=
  if s.runState = .halted then (s, [])
  else reportFrame (sampleSound (if timersCount s then tickTimers s else s))

/-- The host events (40 R120). -/
inductive HostEvent
  | keyPress (k : Nibble)
  | keyRelease (k : Nibble)
  | hostPause
  | hostResume
  | reset
  | loadRom (bytes : List Byte)
  deriving DecidableEq, Repr

/-- The transition of a host event. -/
def applyEvent (e : HostEvent) (s : State) : State × List Notification :=
  match e with
  | .keyPress k => (keyPress k s, [])
  | .keyRelease k => (keyRelease k s, [])
  | .hostPause => (hostPause s, [])
  | .hostResume => (hostResume s, [])
  | .reset => (resetMachine s, [])
  | .loadRom bytes => loadRom bytes s

end Sys2Proof.Machine
end

