-- ==== Sys2Proof/Machine/Schedule.lean ====
section
/-! DEFINITION. Cycles and interleavings (spec/40_execution_cycle.md R126, R134): the schedule of the machine is `SPEED`
step slots and a tick part, repeated, with host events between the slots. -/

namespace Sys2Proof.Machine

/-- A slot of the schedule, or a host event between slots (R134). -/
inductive Slot
  | step
  | tickPart
  | event (e : HostEvent)
  deriving DecidableEq, Repr

/-- A transition with the notifications it emits. -/
abbrev Emitting := Host.Outcome (State × List Notification) Fault Refusal

/-- The `Fatal` notification of a step: once, when the latch is set (60 R281). -/
def fatalRaised (before after : State) : List Notification :=
  match before.fault, after.fault with
  | none, some r => [.fatal r]
  | none, none => []
  | some _, _ => []

/-- One slot or event. -/
def runSlot (slot : Slot) (s : State) : Emitting :=
  match slot with
  | .step =>
    match step s with
    | .next t => .next (t, fatalRaised s t)
    | .fault r => .fault r
    | .refused r => .refused r
  | .tickPart => .next (tickPart s)
  | .event e => .next (applyEvent e s)

/-- A sequence of slots and events, with all its notifications in order (R134, R136). -/
def runSlots : List Slot → State → Emitting
  | [], s => .next (s, [])
  | slot :: slots, s =>
    match runSlot slot s with
    | .fault r => .fault r
    | .refused r => .refused r
    | .next (t, out) =>
      match runSlots slots t with
      | .fault r => .fault r
      | .refused r => .refused r
      | .next (u, more) => .next (u, out ++ more)

/-- The slots of one cycle of `n` steps (R126). -/
def cycleSlots (n : Nat) : List Slot := List.replicate n .step ++ [.tickPart]

/-- `cycle(n)` with no event inside it (R126). A step of a machine that is not `Running` is a no-op and the tick part of
a `Halted` machine does nothing, which are the returns of R126. -/
def cycle (n : Nat) (s : State) : Emitting := runSlots (cycleSlots n) s

/-- The host's `cycle`, of `SPEED` steps (R126, 00 R5). -/
def hostCycle (s : State) : Emitting := cycle s.cfg.speed s

end Sys2Proof.Machine
end

