-- ==== Sys2Proof/Safety.lean ====
section
/-! DEFINITION. What claims are said in: the invariant of reachable states (spec/10_state.md R38), a safe run, the
end of a run (40 R125), and what a transition leaves unchanged (10 R42). -/

namespace Sys2Proof.Machine

/-- The invariants of R38 that the types do not carry already ((c) and (e) are the types of `sp` and `px`): (a), (b), (d)
with what it rests on, that live return addresses are at most 0x1000 (41 R161), and memory's canonical form. -/
structure State.Inv (s : State) : Prop where
  memory      : Memory.wf s.mem
  pcRange     : s.pc.toNat ≤ 0x10FE
  returnRange : ∀ j, (h : j < 16) → j < s.sp.val → (s.stack[j]'h).toNat ≤ 0x1000
  waitPaused  : s.waitKey.isSome = true → s.paused = true
  faultNoWait : s.fault.isSome = true → s.waitKey = none

/-- No fatal condition is recorded: the premise of a claim about a correct run (60 R278). -/
def State.noFault (s : State) : Prop := s.fault = none

/-- A run of `n` steps raises no fatal condition. -/
def SafeFor (n : Nat) (s : State) : Prop :=
  ∀ k, k ≤ n → ∃ t, Sys2Proof.core.run k s = .next t ∧ State.noFault t

/-- The pieces of state besides the general registers and memory, as the columns of R42 name them. -/
inductive Part
  | index
  | pc
  | stack
  | delayTimer
  | soundTimer
  | pixels
  | keys
  | run
  | latch
  | frameDirty
  | soundOn
  | draws
  | cfg
  deriving DecidableEq, Repr

/-- A piece of state is the same in two states. -/
def Part.same (s t : State) : Part → Prop
  | .index => t.I = s.I
  | .pc => t.pc = s.pc
  | .stack => t.sp = s.sp ∧ t.stack = s.stack
  | .delayTimer => t.DT = s.DT
  | .soundTimer => t.ST = s.ST
  | .pixels => t.px = s.px
  | .keys => t.keys = s.keys
  | .run => t.paused = s.paused ∧ t.waitKey = s.waitKey
  | .latch => t.fault = s.fault
  | .frameDirty => t.frameDirty = s.frameDirty
  | .soundOn => t.soundOn = s.soundOn
  | .draws => t.draws = s.draws
  | .cfg => t.cfg = s.cfg

/-- Every piece of state but those listed is unchanged from `s` to `t`. -/
def PartsKept (s t : State) (changed : List Part) : Prop := ∀ p, p ∉ changed → Part.same s t p

/-- Every general register but those listed is unchanged. -/
def RegsKept (s t : State) (changed : List Reg) : Prop := ∀ k, k ∉ changed → t.reg k = s.reg k

/-- Every byte of memory reads as before. -/
def BytesKept (s t : State) : Prop := ∀ a, memRead t.mem a = memRead s.mem a

/-- Every byte of memory outside the `n` bytes from `lo` on reads as before. -/
def BytesKeptOutside (s t : State) (lo n : Nat) : Prop :=
  ∀ a, (a < lo ∨ lo + n ≤ a) → memRead t.mem a = memRead s.mem a

/-- The columns of R42 an instruction writes. `frame_dirty` and `draws` are included; the fault latch is not: a raise is
a transition of its own (60 R275). -/
def writtenParts : Instr → List Part
  | .cls | .drw _ _ _ => [.pixels, .frameDirty]
  | .ret | .call _ => [.pc, .stack]
  | .jp _ | .jpV0 _ => [.pc]
  | .seByte _ _ | .sneByte _ _ | .seReg _ _ | .sneReg _ _ | .skp _ | .sknp _ => [.pc]
  | .ldByte _ _ | .addByte _ _ | .ldReg _ _ | .orReg _ _ | .andReg _ _ | .xorReg _ _ => []
  | .addReg _ _ | .subReg _ _ | .subnReg _ _ | .shr _ _ | .shl _ _ => []
  | .ldI _ | .addIVx _ | .ldFVx _ | .storeRegs _ | .loadRegs _ => [.index]
  | .rnd _ _ => [.draws]
  | .ldVxDT _ | .ldBVx _ => []
  | .ldVxK _ => [.run]
  | .ldDTVx _ => [.delayTimer]
  | .ldSTVx _ => [.soundTimer]

/-- The general registers an instruction writes, `VF` as a side effect included (R42, R21). -/
def writtenRegs : Instr → List Reg
  | .ldByte x _ | .addByte x _ | .ldReg x _ | .orReg x _ | .andReg x _ | .xorReg x _ => [x]
  | .addReg x _ | .subReg x _ | .subnReg x _ | .shr x _ | .shl x _ => [x, VF]
  | .rnd x _ | .ldVxDT x => [x]
  | .drw _ _ _ => [VF]
  | .loadRegs x => (List.range (x.toNat + 1)).map (BitVec.ofNat 4)
  | .cls | .ret | .jp _ | .call _ | .jpV0 _ => []
  | .seByte _ _ | .sneByte _ _ | .seReg _ _ | .sneReg _ _ | .skp _ | .sknp _ => []
  | .ldI _ | .addIVx _ | .ldFVx _ | .ldBVx _ | .storeRegs _ => []
  | .ldVxK _ | .ldDTVx _ | .ldSTVx _ => []

/-- How many bytes an instruction stores, from the address in `I` on (R42, 20 R66). -/
def storedBytes : Instr → Nat
  | .ldBVx _ => 3
  | .storeRegs x => x.toNat + 1
  | .cls | .ret | .jp _ | .call _ | .jpV0 _ | .drw _ _ _ | .rnd _ _ => 0
  | .seByte _ _ | .sneByte _ _ | .seReg _ _ | .sneReg _ _ | .skp _ | .sknp _ => 0
  | .ldByte _ _ | .addByte _ _ | .ldReg _ _ | .orReg _ _ | .andReg _ _ | .xorReg _ _ => 0
  | .addReg _ _ | .subReg _ _ | .subnReg _ _ | .shr _ _ | .shl _ _ => 0
  | .ldI _ | .addIVx _ | .ldFVx _ | .loadRegs _ => 0
  | .ldVxDT _ | .ldVxK _ | .ldDTVx _ | .ldSTVx _ => 0

/-- An instruction's whole effect is one general register: everything else is unchanged. -/
def WritesRegOnly (i : Instr) (s : State) (x : Reg) (v : Byte) : Prop :=
  ∃ t, exec i s = .next t ∧ t.reg x = v ∧ RegsKept s t [x] ∧ PartsKept s t [] ∧ BytesKept s t

/-- An instruction raises the condition: the latch holds it, and nothing but `pc` and the latch differs. -/
def RaisesCause (i : Instr) (s : State) (c : FaultCause) : Prop :=
  ∃ t r, exec i s = .next t ∧ t.fault = some r ∧ r.cause = c ∧
    RegsKept s t [] ∧ PartsKept s t [.pc, .latch] ∧ BytesKept s t

/-- The opcode at `pc`, high byte first (20 R63). -/
def State.opcode (s : State) : Word := bigEndian (s.mem.byteAt s.pc.toNat) (s.mem.byteAt (s.pc.toNat + 1))

/-- The end of a run, which the spec leaves to the model (40 R125, D35, U17): the machine is `Running` and `pc` holds the
address of an instruction `JP` to that same address. A `Halted`, `Paused` or waiting machine is not finished. DESIGN
CHOICE: notes/assumptions/25.md. -/
abbrev State.finished (s : State) : Prop :=
  s.runState = .running ∧ s.pc.toNat ≤ 0xFFE ∧ decode s.opcode = some (.jp (s.pc.setWidth 12))

/-- The run from `s` ends after `n` steps, in `t`: the first finished state of the run (40 R125). -/
def EndsAt (n : Nat) (s t : State) : Prop :=
  Sys2Proof.core.run n s = .next t ∧ t.finished ∧
    ∀ k, k < n → ∀ u, Sys2Proof.core.run k s = .next u → ¬ u.finished

/-- The condition of R271 to R274 on the state at the start of a step: which fatal condition the step raises. -/
def raisedCause (s : State) : Option FaultCause :=
  if 0xFFF ≤ s.pc.toNat then some (.outOfBoundsAccess (max s.pc.toNat 0x1000) 0x1000 .read)
  else
    match decode s.opcode with
    | none => some .unknownOpcode
    | some (.call _) => if s.sp.val = 16 then some (.stackOverflow 16) else none
    | some .ret => if s.sp.val = 0 then some .stackUnderflow else none
    | some (.ldBVx _) =>
      if 0xFFE ≤ s.I.toNat then some (.outOfBoundsAccess (max s.I.toNat 0x1000) 0x1000 .write) else none
    | some (.storeRegs x) =>
      if 0x1000 ≤ s.I.toNat + x.toNat then some (.outOfBoundsAccess (max s.I.toNat 0x1000) 0x1000 .write) else none
    | some (.loadRegs x) =>
      if 0x1000 ≤ s.I.toNat + x.toNat then some (.outOfBoundsAccess (max s.I.toNat 0x1000) 0x1000 .read) else none
    | some (.drw _ _ n) =>
      if 1 ≤ n.toNat ∧ 0x1000 ≤ s.I.toNat + n.toNat - 1 then
        some (.outOfBoundsAccess (max s.I.toNat 0x1000) 0x1000 .read)
      else none
    | some _ => none

/-- Pixel `(a, b)` lies under a 1 bit of the sprite of `n` rows at `I`, drawn at column `vx`, row `vy` (46 R232, R233):
bit `7 - c` of row `r` is column `c`, and every pixel wraps on its own. -/
def SpriteCovers (s : State) (vx vy : Byte) (n a b : Nat) : Prop :=
  ∃ r c, r < n ∧ c < 8 ∧ (s.mem.byteAt (effectiveAddr s r)).getLsbD (7 - c) = true ∧
    (vx.toNat + c) % 64 = a ∧ (vy.toNat + r) % 32 = b

end Sys2Proof.Machine
end

