-- ==== Sys2Proof/Certificates/Slice0/Obligations.lean ====
section
/-! DEFINITION. The statements about the machine, each formalising rules of spec/ (OBLIGATIONS.json says which). A
statement that rests on a choice of the spec marked `[decision]`, on its general knowledge or on a choice of the model
names the log entry of notes/assumptions/. -/

open Sys2Proof Sys2Proof.Machine

/-! ### Reset and load -/

/-- The state after power-on. `pc`, `sp`, `paused`, memory and the grid are the source's values (R44); the zeros of `V`,
`I`, `DT`, `ST` are D5 (log 2), the keys D26 (log 6), the signals D15 and D16 (logs 15, 18); the parameter `FONT_DATA` is the default font (R68, log 10). -/
def Obligations.PowerOnStateHoldsResetValues : Prop :=
  State.reset.pc = 0x200#16 ∧ State.reset.sp.val = 0 ∧ State.reset.paused = true ∧ State.reset.waitKey = none ∧
  State.reset.fault = none ∧ State.reset.runState = .paused ∧
  (∀ x, State.reset.reg x = 0#8) ∧ State.reset.I = 0#16 ∧ State.reset.DT = 0#8 ∧ State.reset.ST = 0#8 ∧
  (∀ x y, State.reset.px.pixel x y = false) ∧ State.reset.frameDirty = false ∧ State.reset.soundOn = false ∧
  (∀ k, (h : k < 16) → State.reset.keys[k]'h = false) ∧
  State.reset.cfg.font.toList = fontData ∧
  (∀ a, a < 80 → memRead State.reset.mem a = .ok (fontData.getD a 0#8)) ∧
  (∀ a, 80 ≤ a → a < 4096 → memRead State.reset.mem a = .ok 0#8)

/-- `Reset` in any state (R301; the zeros are D5, log 2; the keys kept D26, log 6). The font it installs is the parameter
`FONT_DATA`, whatever its 80 bytes are (R68, D4, log 10). -/
def Obligations.ResetEventReinitialisesMachine : Prop :=
  ∀ s : State, ∃ t, applyEvent .reset s = (t, []) ∧
    t.pc = 0x200#16 ∧ t.sp.val = 0 ∧ t.paused = true ∧ t.waitKey = none ∧ t.fault = none ∧ t.runState = .paused ∧
    (∀ x, t.reg x = 0#8) ∧ t.I = 0#16 ∧ t.DT = 0#8 ∧ t.ST = 0#8 ∧
    (∀ x y, t.px.pixel x y = false) ∧ t.frameDirty = false ∧ t.soundOn = false ∧
    (∀ a, (h : a < 80) → memRead t.mem a = .ok (s.cfg.font[a]'h)) ∧ (∀ a, 80 ≤ a → a < 4096 → memRead t.mem a = .ok 0#8) ∧
    t.keys = s.keys ∧ t.cfg = s.cfg

/-- `LoadROM` (R302, R280; D24, D25, D37, log 17): an image of at most 3584 bytes re-initialises the machine, stands at
0x200 on, and starts it; a longer one changes nothing and is reported. -/
def Obligations.LoadRomPlacesImageOrRejects : Prop :=
  ∀ (bytes : List Byte) (s : State),
    (bytes.length ≤ 3584 → ∃ t, applyEvent (.loadRom bytes) s = (t, []) ∧ t.runState = .running ∧ t.paused = false ∧
      (∀ j, (h : j < bytes.length) → memRead t.mem (0x200 + j) = .ok (bytes[j]'h)) ∧
      (∀ a, (a < 0x200 ∨ 0x200 + bytes.length ≤ a) → memRead t.mem a = memRead (resetMachine s).mem a) ∧
      RegsKept (resetMachine s) t [] ∧ PartsKept (resetMachine s) t [.run]) ∧
    (3584 < bytes.length → applyEvent (.loadRom bytes) s = (s, [.romTooLarge bytes.length 0x200 4096]))

/-! ### Memory -/

/-- R61 and R62: below `MEM_SIZE` a write makes its address read as the value and leaves every other address alone; from
`MEM_SIZE` on reads and writes raise with the address, nothing wraps. The premise is the canonical form every state of a
run has. -/
def Obligations.MemoryReadAfterWrite : Prop :=
  ∀ (m : Memory) (a : Nat) (v : Byte), Memory.wf m →
    (a < 4096 → ∃ m', memWrite m a v = .ok m' ∧ memRead m' a = .ok v ∧ (∀ b, b ≠ a → memRead m' b = memRead m b)) ∧
    (4096 ≤ a → memWrite m a v = .error a ∧ memRead m a = .error a)

/-- The model's memories are canonical: two that read the same everywhere are the same (log 10). -/
def Obligations.EqualReadsAreEqualMemories : Prop :=
  ∀ m n : Memory, Memory.wf m → Memory.wf n → (∀ a, memRead m a = memRead n a) → m = n

/-- R63: the opcode is `Mem[addr] * 256 + Mem[addr + 1]`; a fetch at 0xFFF raises on 0x1000, a fetch at 0x1000 or more on
its own address. -/
def Obligations.FetchIsBigEndianAndBounded : Prop :=
  ∀ (m : Memory) (a : Nat),
    (a ≤ 0xFFE → ∃ op hi lo, fetch16 m a = .ok op ∧ memRead m a = .ok hi ∧ memRead m (a + 1) = .ok lo ∧
      op.toNat = hi.toNat * 256 + lo.toNat) ∧
    (a = 0xFFF → fetch16 m a = .error 0x1000) ∧
    (0x1000 ≤ a → fetch16 m a = .error a)

/-- R75 (D32): what `LD [I], Vx` stores is what the very next fetch reads, at `pc` too. -/
def Obligations.StoreIntoCodeIsFetchedNext : Prop :=
  ∀ (x j : Reg) (s t : State), Memory.wf s.mem → j.toNat < x.toNat → s.I.toNat + x.toNat < 4096 →
    exec (.storeRegs x) s = .next t →
    ∃ op, fetch16 t.mem (effectiveAddr s j.toNat) = .ok op ∧
      op.toNat = (s.reg j).toNat * 256 + (s.reg (BitVec.ofNat 4 (j.toNat + 1))).toNat

/-! ### Encoding -/

/-- Every instruction, with every operand at every value, decodes from its own word (the words are R94's, G1, log 9). -/
def Obligations.EveryInstructionDecodesFromItsWord : Prop := ∀ i : Instr, decode (encode i) = some i

/-- A word that decodes is the word of its instruction: no word has two meanings and no bit is dropped (log 9). -/
def Obligations.EveryDecodedWordIsItsEncoding : Prop := ∀ (op : Word) (i : Instr), decode op = some i → encode i = op

/-- R98: the opcodes that match no record, exactly (log 9). -/
def Obligations.IllegalOpcodesAreExactlyListed : Prop :=
  ∀ op : Word, decode op = none ↔
    (op.toNat / 4096 = 0 ∧ op ≠ 0x00E0#16 ∧ op ≠ 0x00EE#16) ∨
    (op.toNat / 4096 = 5 ∧ op.toNat % 16 ≠ 0) ∨
    (op.toNat / 4096 = 8 ∧ op.toNat % 16 ∈ [0x8, 0x9, 0xA, 0xB, 0xC, 0xD, 0xF]) ∨
    (op.toNat / 4096 = 9 ∧ op.toNat % 16 ≠ 0) ∨
    (op.toNat / 4096 = 0xE ∧ op.toNat % 256 ∉ [0x9E, 0xA1]) ∨
    (op.toNat / 4096 = 0xF ∧ op.toNat % 256 ∉ [0x07, 0x0A, 0x15, 0x18, 0x1E, 0x29, 0x33, 0x55, 0x65])

/-- R96: no opcode matches two records of the catalog (log 9). -/
def Obligations.CatalogRecordsMutuallyExclusive : Prop :=
  ∀ op : Word, (catalog.filter fun r => r.hits op).length ≤ 1

/-- The source's own opcodes (R103) and those of vector T151, decoded. -/
def Obligations.SourceOpcodesDecode : Prop :=
  decode 0x6005#16 = some (.ldByte 0#4 0x05#8) ∧ decode 0x7003#16 = some (.addByte 0#4 0x03#8) ∧
  decode 0xA300#16 = some (.ldI 0x300#12) ∧ decode 0xF355#16 = some (.storeRegs 3#4) ∧
  decode 0x8AB6#16 = some (.shr 10#4 11#4) ∧ decode 0xD125#16 = some (.drw 1#4 2#4 5#4) ∧
  decode 0x3A42#16 = some (.seByte 10#4 0x42#8) ∧ decode 0x2ABC#16 = some (.call 0xABC#12) ∧
  decode 0x0000#16 = none ∧ decode 0x8AB8#16 = none

/-! ### The step -/

/-- R122: a `Running` machine whose bytes at `pc` decode to `i` runs `i` with `pc` already advanced by 2. -/
def Obligations.StepRunsDecodedInstruction : Prop :=
  ∀ (s : State) (i : Instr) (hi lo : Byte), s.runState = .running →
    memRead s.mem s.pc.toNat = .ok hi → memRead s.mem (s.pc.toNat + 1) = .ok lo →
    decode (BitVec.ofNat 16 (hi.toNat * 256 + lo.toNat)) = some i →
    step s = exec i { s with pc := BitVec.ofNat 16 (s.pc.toNat + 2) }

/-- R121: in `Paused`, `WaitingForKey` and `Halted` a step changes nothing. -/
def Obligations.StepIdleUnlessRunning : Prop :=
  ∀ s : State, (s.fault ≠ none ∨ s.waitKey ≠ none ∨ s.paused = true) → step s = .next s

/-- R271, R274, R275, R277 (D21 to D23, log 1): the two conditions raised before an instruction runs, the fetch's first;
everything but the latch is as before, `pc` included. -/
def Obligations.FetchAndDecodeFaultsLeaveStateAsBefore : Prop :=
  ∀ s : State, s.runState = .running →
    (0xFFF ≤ s.pc.toNat → step s = .next { s with
      fault := some ⟨.outOfBoundsAccess (max s.pc.toNat 0x1000) 0x1000 .read, s.pc, none⟩ }) ∧
    (∀ op, fetch16 s.mem s.pc.toNat = .ok op → decode op = none → step s = .next { s with
      fault := some ⟨.unknownOpcode, s.pc, some op⟩ })

/-- The host's placed word runs next, and placing it changes nothing but its two bytes and the run state (the model's own,
log 7). -/
def Obligations.PlacedWordRunsNext : Prop :=
  ∀ (s : State) (w : Nat) (i : Instr), Memory.wf s.mem → s.pc.toNat ≤ 0xFFE → decodeTableWord 16 w = some i →
    step (s.withFetchWord 16 w) = exec i (advance (s.withFetchWord 16 w)) ∧
    RegsKept s (s.withFetchWord 16 w) [] ∧ PartsKept s (s.withFetchWord 16 w) [.run, .latch] ∧
    BytesKeptOutside s (s.withFetchWord 16 w) s.pc.toNat 2

/-- No state makes a step stop outside the state or refuse: the decoder is total (R95) and every fatal condition is a
state (R270, R275; log 1). -/
def Obligations.StepAlwaysAnswersNext : Prop := ∀ s : State, ∃ t, step s = .next t

/-- R270 to R274, R276: a step of a `Running` machine raises exactly the listed conditions, with the lowest out-of-range
address and the instruction's own address and opcode in the record (record layout D22, log 1). -/
def Obligations.StepRaisesExactlyListedConditions : Prop :=
  ∀ s : State, s.runState = .running → ∃ t, step s = .next t ∧
    t.fault = (raisedCause s).map fun c => ⟨c, s.pc, if s.pc.toNat < 0xFFF then some s.opcode else none⟩

/-- R275 (D21, log 1): faults are precise. A step that sets the latch changes nothing else whatsoever, the default advance
of `pc` undone. -/
def Obligations.RaisingStepChangesOnlyLatch : Prop :=
  ∀ s t : State, step s = .next t → t.fault ≠ s.fault → s.fault = none ∧ t = { s with fault := t.fault }

/-! ### Invariants -/

/-- The invariant R38 holds after reset. -/
def Obligations.ResetMeetsInvariant : Prop := State.reset.Inv

/-- R38, R161: every step keeps the invariant, from every state that has it. -/
def Obligations.StepKeepsInvariant : Prop := ∀ s t : State, s.Inv → step s = .next t → t.Inv

/-- R38: every sequence of steps, tick parts and host events keeps the invariant. -/
def Obligations.ScheduleKeepsInvariant : Prop :=
  ∀ (slots : List Slot) (s t : State) (out : List Notification), s.Inv → runSlots slots s = .next (t, out) → t.Inv

/-! ### Loads and ALU -/

/-- R171: LD Vx, byte. -/
def Obligations.LoadImmediateWritesRegister : Prop :=
  ∀ (x : Reg) (kk : Byte) (s : State),
    decode (BitVec.ofNat 16 (0x6000 + x.toNat * 256 + kk.toNat)) = some (.ldByte x kk) ∧
    WritesRegOnly (.ldByte x kk) s x kk

/-- R172: ADD Vx, byte wraps modulo 256 and writes no flag (D39, log 13). -/
def Obligations.ImmediateAddWrapsWithoutFlag : Prop :=
  ∀ (x : Reg) (kk : Byte) (s : State),
    ∃ t, exec (.addByte x kk) s = .next t ∧ (t.reg x).toNat = ((s.reg x).toNat + kk.toNat) % 256 ∧
      RegsKept s t [x] ∧ PartsKept s t [] ∧ BytesKept s t

/-- R173 to R176: LD Vx, Vy and OR, AND, XOR write `V[x]` and nothing else, no flag (D11, log 13; the direction of the
copy is G3, log 9). -/
def Obligations.CopyAndBitwiseWriteOnlyVx : Prop :=
  ∀ (x y : Reg) (s : State),
    WritesRegOnly (.ldReg x y) s x (s.reg y) ∧
    WritesRegOnly (.orReg x y) s x (s.reg x ||| s.reg y) ∧
    WritesRegOnly (.andReg x y) s x (s.reg x &&& s.reg y) ∧
    WritesRegOnly (.xorReg x y) s x (s.reg x ^^^ s.reg y)

/-- R177: ADD Vx, Vy, its word as R94 prints it (log 9). With `x = 15` the truncated sum lands on the flag. -/
def Obligations.AddWritesCarryThenSum : Prop :=
  ∀ (x y : Reg) (s : State),
    decode (BitVec.ofNat 16 (0x8004 + x.toNat * 256 + y.toNat * 16)) = some (.addReg x y) ∧
    ∃ t, exec (.addReg x y) s = .next t ∧
      (t.reg x).toNat = ((s.reg x).toNat + (s.reg y).toNat) % 256 ∧
      (x ≠ VF → t.reg VF = if 255 < (s.reg x).toNat + (s.reg y).toNat then 0x01#8 else 0x00#8) ∧
      RegsKept s t [x, VF] ∧ PartsKept s t [] ∧ BytesKept s t

/-- R178: SUB Vx, Vy, its word as R94 prints it (log 9). With `x = 15` the difference lands on the flag. -/
def Obligations.SubWritesNotBorrowThenDifference : Prop :=
  ∀ (x y : Reg) (s : State),
    decode (BitVec.ofNat 16 (0x8005 + x.toNat * 256 + y.toNat * 16)) = some (.subReg x y) ∧
    ∃ t, exec (.subReg x y) s = .next t ∧
      (t.reg x).toNat = ((s.reg x).toNat + 256 - (s.reg y).toNat) % 256 ∧
      (x ≠ VF → t.reg VF = if (s.reg y).toNat ≤ (s.reg x).toNat then 0x01#8 else 0x00#8) ∧
      RegsKept s t [x, VF] ∧ PartsKept s t [] ∧ BytesKept s t

/-- R179: SUBN Vx, Vy; that the result is `Vy - Vx` into `Vx` is G3 (log 9). -/
def Obligations.SubnWritesNotBorrowThenDifference : Prop :=
  ∀ (x y : Reg) (s : State),
    ∃ t, exec (.subnReg x y) s = .next t ∧
      (t.reg x).toNat = ((s.reg y).toNat + 256 - (s.reg x).toNat) % 256 ∧
      (x ≠ VF → t.reg VF = if (s.reg x).toNat ≤ (s.reg y).toNat then 0x01#8 else 0x00#8) ∧
      RegsKept s t [x, VF] ∧ PartsKept s t [] ∧ BytesKept s t

/-- R191: SHR Vx, Vy in both shift modes, its word as R94 prints it (log 9). With `x = 15` the result lands on the flag. -/
def Obligations.ShiftRightWritesLowBitThenHalf : Prop :=
  ∀ (x y : Reg) (s : State) (src : Byte),
    src = (if s.cfg.shiftMode = .shiftVy then s.reg y else s.reg x) →
    decode (BitVec.ofNat 16 (0x8006 + x.toNat * 256 + y.toNat * 16)) = some (.shr x y) ∧
    ∃ t, exec (.shr x y) s = .next t ∧
      (t.reg x).toNat = src.toNat / 2 ∧
      (x ≠ VF → t.reg VF = if src.toNat % 2 = 1 then 0x01#8 else 0x00#8) ∧
      RegsKept s t [x, VF] ∧ PartsKept s t [] ∧ BytesKept s t

/-- R192: SHL Vx, Vy in both shift modes; that it loses bit 7 is G3 (log 9). -/
def Obligations.ShiftLeftWritesHighBitThenDouble : Prop :=
  ∀ (x y : Reg) (s : State) (src : Byte),
    src = (if s.cfg.shiftMode = .shiftVy then s.reg y else s.reg x) →
    ∃ t, exec (.shl x y) s = .next t ∧
      (t.reg x).toNat = src.toNat * 2 % 256 ∧
      (x ≠ VF → t.reg VF = if 128 ≤ src.toNat then 0x01#8 else 0x00#8) ∧
      RegsKept s t [x, VF] ∧ PartsKept s t [] ∧ BytesKept s t

/-! ### Index register and memory transfers -/

/-- R200 and R202: LD I, addr and LD F, Vx, their words as R94 prints them (log 9); the whole byte `V[x]` is multiplied
by 5. -/
def Obligations.IndexLoadsPutAddressInI : Prop :=
  ∀ (nnn : Addr12) (x : Reg) (s : State),
    (decode (BitVec.ofNat 16 (0xA000 + nnn.toNat)) = some (.ldI nnn) ∧
      ∃ t, exec (.ldI nnn) s = .next t ∧ t.I.toNat = nnn.toNat ∧
        RegsKept s t [] ∧ PartsKept s t [.index] ∧ BytesKept s t) ∧
    (decode (BitVec.ofNat 16 (0xF029 + x.toNat * 256)) = some (.ldFVx x) ∧
      ∃ t, exec (.ldFVx x) s = .next t ∧ t.I.toNat = (s.reg x).toNat * 5 ∧
        RegsKept s t [] ∧ PartsKept s t [.index] ∧ BytesKept s t)

/-- R201: ADD I, Vx wraps modulo 65536 and writes no flag (D9, D39, logs 11, 13). -/
def Obligations.IndexAddWrapsWithoutFlag : Prop :=
  ∀ (x : Reg) (s : State),
    ∃ t, exec (.addIVx x) s = .next t ∧ t.I.toNat = (s.I.toNat + (s.reg x).toNat) % 65536 ∧
      RegsKept s t [] ∧ PartsKept s t [.index] ∧ BytesKept s t

/-- R203: LD B, Vx, its word as R94 prints it (log 9), stores the three digits at `I` on, or raises and stores nothing. -/
def Obligations.BcdStoresThreeDigits : Prop :=
  ∀ (x : Reg) (s : State) (a : Nat), Memory.wf s.mem → a = effectiveAddr s 0 →
    decode (BitVec.ofNat 16 (0xF033 + x.toNat * 256)) = some (.ldBVx x) ∧
    (a < 0xFFE → ∃ t, exec (.ldBVx x) s = .next t ∧
      memRead t.mem a = .ok (BitVec.ofNat 8 ((s.reg x).toNat / 100)) ∧
      memRead t.mem (a + 1) = .ok (BitVec.ofNat 8 ((s.reg x).toNat / 10 % 10)) ∧
      memRead t.mem (a + 2) = .ok (BitVec.ofNat 8 ((s.reg x).toNat % 10)) ∧
      BytesKeptOutside s t a 3 ∧ RegsKept s t [] ∧ PartsKept s t []) ∧
    (0xFFE ≤ a → RaisesCause (.ldBVx x) s (.outOfBoundsAccess (max a 0x1000) 0x1000 .write))

/-- R205: LD [I], Vx stores `V[0]` to `V[x]` and moves `I` by the index mode, or raises and stores nothing. -/
def Obligations.BlockStoreWritesRegistersToMemory : Prop :=
  ∀ (x : Reg) (s : State) (a : Nat), Memory.wf s.mem → a = effectiveAddr s 0 →
    decode (BitVec.ofNat 16 (0xF055 + x.toNat * 256)) = some (.storeRegs x) ∧
    (a + x.toNat < 0x1000 → ∃ t, exec (.storeRegs x) s = .next t ∧
      (∀ j : Reg, j.toNat ≤ x.toNat → memRead t.mem (a + j.toNat) = .ok (s.reg j)) ∧
      BytesKeptOutside s t a (x.toNat + 1) ∧ RegsKept s t [] ∧ PartsKept s t [.index] ∧
      (s.cfg.indexMode = .unchanged → t.I = s.I) ∧
      (s.cfg.indexMode = .incByX → t.I.toNat = (a + x.toNat) % 65536) ∧
      (s.cfg.indexMode = .incByXPlus1 → t.I.toNat = (a + x.toNat + 1) % 65536)) ∧
    (0x1000 ≤ a + x.toNat → RaisesCause (.storeRegs x) s (.outOfBoundsAccess (max a 0x1000) 0x1000 .write))

/-- R206: LD Vx, [I] loads `V[0]` to `V[x]` and moves `I` by the index mode, or raises and loads nothing. -/
def Obligations.BlockLoadReadsRegistersFromMemory : Prop :=
  ∀ (x : Reg) (s : State) (a : Nat), a = effectiveAddr s 0 →
    decode (BitVec.ofNat 16 (0xF065 + x.toNat * 256)) = some (.loadRegs x) ∧
    (a + x.toNat < 0x1000 → ∃ t, exec (.loadRegs x) s = .next t ∧
      (∀ j : Reg, j.toNat ≤ x.toNat → memRead s.mem (a + j.toNat) = .ok (t.reg j)) ∧
      (∀ j : Reg, x.toNat < j.toNat → t.reg j = s.reg j) ∧
      BytesKept s t ∧ PartsKept s t [.index] ∧
      (s.cfg.indexMode = .unchanged → t.I = s.I) ∧
      (s.cfg.indexMode = .incByX → t.I.toNat = (a + x.toNat) % 65536) ∧
      (s.cfg.indexMode = .incByXPlus1 → t.I.toNat = (a + x.toNat + 1) % 65536)) ∧
    (0x1000 ≤ a + x.toNat → RaisesCause (.loadRegs x) s (.outOfBoundsAccess (max a 0x1000) 0x1000 .read))

/-! ### Random -/

/-- R221: RND Vx, byte, for every value of the free byte (D30, log 5; the destination is G3, log 9). -/
def Obligations.RandomByteIsMaskedIntoRegister : Prop :=
  ∀ (x : Reg) (kk : Byte) (s : State),
    ∃ t, exec (.rnd x kk) s = .next t ∧ t.reg x = Config.randomByte s.draws &&& kk ∧ t.draws = s.draws + 1 ∧
      (∀ j, kk.getLsbD j = false → (t.reg x).getLsbD j = false) ∧
      RegsKept s t [x] ∧ PartsKept s t [.draws] ∧ BytesKept s t

/-! ### Display -/

/-- R230: `setPixel` toggles one pixel, coordinates wrapped, and reports whether it was lit. -/
def Obligations.SetPixelTogglesOneWrappedPixel : Prop :=
  ∀ (g : Grid) (x y : Nat),
    (setPixel g x y).2 = g.pixel x y ∧
    (∀ a b, a < 64 → b < 32 →
      (setPixel g x y).1.pixel a b = if a = x % 64 ∧ b = y % 32 then !g.pixel a b else g.pixel a b) ∧
    setPixel g (x + 64) y = setPixel g x y ∧ setPixel g x (y + 32) = setPixel g x y ∧
    setPixel (setPixel g x y).1 x y = (g, !g.pixel x y)

/-- R231: CLS (that it clears is G3, log 9; that it marks the frame D16, log 15). -/
def Obligations.ClearUnlightsEveryPixel : Prop :=
  ∀ s : State, ∃ t, exec .cls s = .next t ∧ (∀ a b, t.px.pixel a b = false) ∧ t.frameDirty = true ∧
    RegsKept s t [] ∧ PartsKept s t [.pixels, .frameDirty] ∧ BytesKept s t

/-- R232, R233: DRW toggles exactly the pixels under 1 bits of the sprite and sets `VF` to whether one of them was lit.
The position is the old `VF` when `x` or `y` is 15 (D10, log 12); bit order and orientation are G4, G5 (log 15). -/
def Obligations.DrawTogglesSpriteAndReportsCollision : Prop :=
  ∀ (x y : Reg) (n : Nibble) (s : State), (n.toNat = 0 ∨ effectiveAddr s n.toNat ≤ 0x1000) →
    ∃ t, exec (.drw x y n) s = .next t ∧
      (∀ a b, a < 64 → b < 32 →
        (SpriteCovers s (s.reg x) (s.reg y) n.toNat a b → t.px.pixel a b = !s.px.pixel a b) ∧
        (¬ SpriteCovers s (s.reg x) (s.reg y) n.toNat a b → t.px.pixel a b = s.px.pixel a b)) ∧
      (t.reg VF = 0x00#8 ∨ t.reg VF = 0x01#8) ∧
      (t.reg VF = 0x01#8 ↔ ∃ a b, SpriteCovers s (s.reg x) (s.reg y) n.toNat a b ∧ s.px.pixel a b = true) ∧
      t.frameDirty = true ∧ RegsKept s t [VF] ∧ PartsKept s t [.pixels, .frameDirty] ∧ BytesKept s t

/-- R232, R271: a sprite that reaches beyond memory raises and draws nothing (D21, log 1). -/
def Obligations.DrawOutsideMemoryRaises : Prop :=
  ∀ (x y : Reg) (n : Nibble) (s : State), 1 ≤ n.toNat → 0x1000 < effectiveAddr s n.toNat →
    RaisesCause (.drw x y n) s (.outOfBoundsAccess (max s.I.toNat 0x1000) 0x1000 .read)

/-- R232 (g): the same sprite drawn twice at the same place restores the grid; the second draw reports a collision exactly
when a pixel under a 1 bit was unlit before the first. -/
def Obligations.DrawingTwiceRestoresGrid : Prop :=
  ∀ (x y : Reg) (n : Nibble) (s t u : State), x ≠ VF → y ≠ VF → (n.toNat = 0 ∨ effectiveAddr s n.toNat ≤ 0x1000) →
    exec (.drw x y n) s = .next t → exec (.drw x y n) t = .next u →
    u.px = s.px ∧
    (u.reg VF = 0x01#8 ↔ ∃ a b, SpriteCovers s (s.reg x) (s.reg y) n.toNat a b ∧ s.px.pixel a b = false)

/-! ### Control flow -/

/-- R151 and R154: JP goes to `nnn`, JP V0 to `nnn + V[0]`, not reduced modulo 4096 (targets G3, log 9; D9, log 11). -/
def Obligations.JumpsSetPcOnly : Prop :=
  ∀ (nnn : Addr12) (s : State),
    (∃ t, exec (.jp nnn) s = .next t ∧ t.pc.toNat = nnn.toNat ∧
      RegsKept s t [] ∧ PartsKept s t [.pc] ∧ BytesKept s t) ∧
    (∃ t, exec (.jpV0 nnn) s = .next t ∧ t.pc.toNat = nnn.toNat + (s.reg 0#4).toNat ∧
      RegsKept s t [] ∧ PartsKept s t [.pc] ∧ BytesKept s t)

/-- R152: CALL pushes the advanced `pc` and jumps (D7, log 21), or raises with a full stack. -/
def Obligations.CallPushesReturnAddress : Prop :=
  ∀ (nnn : Addr12) (s : State),
    (∀ h : s.sp.val < 16, ∃ t, exec (.call nnn) s = .next t ∧ t.pc.toNat = nnn.toNat ∧ t.sp.val = s.sp.val + 1 ∧
      t.stack[s.sp.val]'h = s.pc ∧ (∀ j, (hj : j < 16) → j ≠ s.sp.val → t.stack[j]'hj = s.stack[j]'hj) ∧
      RegsKept s t [] ∧ PartsKept s t [.pc, .stack] ∧ BytesKept s t) ∧
    (s.sp.val = 16 → RaisesCause (.call nnn) s (.stackOverflow 16))

/-- R153: RET sets `pc` to the newest entry with no further adjustment (D7, log 21), or raises with an empty stack. -/
def Obligations.ReturnPopsReturnAddress : Prop :=
  ∀ s : State,
    (s.sp.val ≠ 0 → ∃ t, ∃ h : s.sp.val - 1 < 16, exec .ret s = .next t ∧ t.pc = s.stack[s.sp.val - 1]'h ∧
      t.sp.val + 1 = s.sp.val ∧ t.stack = s.stack ∧
      RegsKept s t [] ∧ PartsKept s t [.pc, .stack] ∧ BytesKept s t) ∧
    (s.sp.val = 0 → RaisesCause .ret s .stackUnderflow)

/-- R26 and R27: push stores at `sp` and counts up, pop counts down and returns that entry; the full stack raises
`StackOverflow`, the empty one `StackUnderflow`; push then pop returns the exact pushed address. -/
def Obligations.PushThenPopReturnsAddress : Prop :=
  ∀ (s : State) (a : Word) (nnn : Addr12),
    (s.sp.val = 16 → push s a = none ∧ RaisesCause (.call nnn) s (.stackOverflow 16)) ∧
    (∀ h : s.sp.val < 16, ∃ t, push s a = some t ∧ t.stack = s.stack.set s.sp.val a h ∧ t.sp.val = s.sp.val + 1 ∧
      ∃ u, pop t = some (a, u) ∧ u.sp = s.sp ∧ u.stack = t.stack) ∧
    (s.sp.val = 0 → pop s = none ∧ RaisesCause .ret s .stackUnderflow) ∧
    (s.sp.val ≠ 0 → ∃ t, ∃ h : s.sp.val - 1 < 16, pop s = some (s.stack[s.sp.val - 1]'h, t) ∧
      t.sp.val + 1 = s.sp.val ∧ t.stack = s.stack)

/-- R155 to R158: the value skips add one extra advance exactly when the condition holds (conditions G3, log 9). -/
def Obligations.ValueSkipsAdvanceOnCondition : Prop :=
  ∀ (x y : Reg) (kk : Byte) (s skipped : State), skipped = { s with pc := BitVec.ofNat 16 (s.pc.toNat + 2) } →
    exec (.seByte x kk) s = .next (if s.reg x = kk then skipped else s) ∧
    exec (.sneByte x kk) s = .next (if s.reg x ≠ kk then skipped else s) ∧
    exec (.seReg x y) s = .next (if s.reg x = s.reg y then skipped else s) ∧
    exec (.sneReg x y) s = .next (if s.reg x ≠ s.reg y then skipped else s)

/-- R159 and R160: the key skips (conditions G3, log 9); a symbol above 15 is not pressed (D20, log 14). -/
def Obligations.KeySkipsFollowPressedState : Prop :=
  ∀ (x : Reg) (s skipped : State), skipped = { s with pc := BitVec.ofNat 16 (s.pc.toNat + 2) } →
    (∀ h : (s.reg x).toNat < 16,
      exec (.skp x) s = .next (if s.keys[(s.reg x).toNat]'h = true then skipped else s) ∧
      exec (.sknp x) s = .next (if s.keys[(s.reg x).toNat]'h = true then s else skipped)) ∧
    (16 ≤ (s.reg x).toNat → exec (.skp x) s = .next s ∧ exec (.sknp x) s = .next skipped)

/-! ### Key wait and timers -/

/-- R250: LD Vx, K, its word as R94 prints it (log 9), arms the wait and writes no register; the machine then stands
still, neither a press nor a resume nor a frozen tick ends the wait, a release ends it with the symbol in `V[x]`, and
`Reset` and `LoadROM` cancel it. -/
def Obligations.KeyWaitEndsOnReleaseOnly : Prop :=
  ∀ (x : Reg) (s : State), s.fault = none →
    decode (BitVec.ofNat 16 (0xF00A + x.toNat * 256)) = some (.ldVxK x) ∧
    ∃ t, exec (.ldVxK x) s = .next t ∧ t.waitKey = some x ∧ t.paused = true ∧ t.runState = .waitingForKey ∧
      RegsKept s t [] ∧ PartsKept s t [.run] ∧ BytesKept s t ∧
      step t = .next t ∧
      (∀ k, (keyPress k t).runState = .waitingForKey ∧ RegsKept t (keyPress k t) []) ∧ hostResume t = t ∧
      (t.cfg.tickWhenPaused = false → (tickPart t).1.DT = t.DT ∧ (tickPart t).1.ST = t.ST ∧ (tickPart t).1.px = t.px) ∧
      (∀ k, (keyRelease k t).reg x = k.setWidth 8 ∧ RegsKept t (keyRelease k t) [x] ∧
        (keyRelease k t).runState = .running ∧ (keyRelease k t).pc = t.pc) ∧
      (resetMachine t).waitKey = none ∧ (∀ bytes, bytes.length ≤ 3584 → (loadRom bytes t).1.waitKey = none)

/-- R251 to R253: the timer moves (directions G3, log 9). -/
def Obligations.TimerMovesCopyWholeByte : Prop :=
  ∀ (x : Reg) (s : State),
    WritesRegOnly (.ldVxDT x) s x s.DT ∧
    (∃ t, exec (.ldDTVx x) s = .next t ∧ t.DT = s.reg x ∧
      RegsKept s t [] ∧ PartsKept s t [.delayTimer] ∧ BytesKept s t) ∧
    (∃ t, exec (.ldSTVx x) s = .next t ∧ t.ST = s.reg x ∧
      RegsKept s t [] ∧ PartsKept s t [.soundTimer] ∧ BytesKept s t)

/-! ### The whole machine -/

/-- R42, R21, R234: an instruction that completes changes only the columns of the access table, the registers it names
(`VF` by the six flag writers), and the bytes it stores; the block transfers move `I` only by the index mode. -/
def Obligations.InstructionsWriteOnlyTheirColumns : Prop :=
  ∀ (i : Instr) (s t : State), Memory.wf s.mem → s.fault = none → exec i s = .next t → t.fault = none →
    PartsKept s t (writtenParts i) ∧ RegsKept s t (writtenRegs i) ∧
    BytesKeptOutside s t (effectiveAddr s 0) (storedBytes i) ∧
    (∀ x, (i = .storeRegs x ∨ i = .loadRegs x) → s.cfg.indexMode = .unchanged → t.I = s.I)

/-- R127: the tick brings each timer one toward zero, never below, and `n` ticks bring it to `v - n`; nothing else
decrements a timer: a step changes a timer only by LD DT, Vx or LD ST, Vx, and no host event but `Reset` and `LoadROM`
changes one. -/
def Obligations.OnlyTickCountsTimersDown : Prop :=
  (∀ s : State, (tickTimers s).DT.toNat = s.DT.toNat - 1 ∧ (tickTimers s).ST.toNat = s.ST.toNat - 1 ∧
    RegsKept s (tickTimers s) [] ∧ PartsKept s (tickTimers s) [.delayTimer, .soundTimer] ∧
    BytesKept s (tickTimers s)) ∧
  (∀ (n : Nat) (s : State), (Nat.repeat tickTimers n s).DT.toNat = s.DT.toNat - n ∧
    (Nat.repeat tickTimers n s).ST.toNat = s.ST.toNat - n) ∧
  (∀ s t : State, step s = .next t →
    (t.DT = s.DT ∨ ∃ x, decode s.opcode = some (.ldDTVx x) ∧ t.DT = s.reg x) ∧
    (t.ST = s.ST ∨ ∃ x, decode s.opcode = some (.ldSTVx x) ∧ t.ST = s.reg x)) ∧
  (∀ (e : HostEvent) (s : State), e ≠ .reset → (∀ bytes, e ≠ .loadRom bytes) →
    (applyEvent e s).1.DT = s.DT ∧ (applyEvent e s).1.ST = s.ST)

/-- R126, R128, R129: the tick part of a machine that is not `Halted` counts the timers if it runs or may tick while paused
(D14, log 4), samples the sound level after the tick (D15, log 18), and reports and clears the frame flag (D16, log 15);
in `Halted` it does nothing (D33, log 20). -/
def Obligations.TickPartSamplesSoundAndReportsFrame : Prop :=
  ∀ (s t : State) (out : List Notification), tickPart s = (t, out) →
    (s.runState = .halted → t = s ∧ out = []) ∧
    (s.runState ≠ .halted →
      ((s.runState = .running ∨ s.cfg.tickWhenPaused = true) →
        t.DT.toNat = s.DT.toNat - 1 ∧ t.ST.toNat = s.ST.toNat - 1) ∧
      (s.runState ≠ .running → s.cfg.tickWhenPaused = false → t.DT = s.DT ∧ t.ST = s.ST) ∧
      (t.soundOn = true ↔ t.ST.toNat ≠ 0) ∧ t.frameDirty = false ∧
      out = (if s.frameDirty = true then [Notification.frameDirty] else []) ∧
      RegsKept s t [] ∧ PartsKept s t [.delayTimer, .soundTimer, .soundOn, .frameDirty] ∧ BytesKept s t)

/-- R126, R278 (D33, log 20): a cycle of a machine that is `Paused` or `WaitingForKey` is its tick part alone, a cycle of a
`Halted` machine nothing at all, whatever `SPEED` is. -/
def Obligations.CycleOfIdleMachineIsTickPart : Prop :=
  ∀ (n : Nat) (s : State),
    ((s.runState = .paused ∨ s.runState = .waitingForKey) → cycle n s = .next (tickPart s) ∧
      hostCycle s = .next (tickPart s)) ∧
    (s.runState = .halted → cycle n s = .next (s, []) ∧ hostCycle s = .next (s, []))

/-- R130 and R131: key events. A release ends an armed wait with the symbol in its register and clears the pause, a user
pause made during the wait included (D19, log 16); with no wait armed, or in `Halted`, it only updates the key. -/
def Obligations.KeyEventsUpdateKeysAndEndWait : Prop :=
  ∀ (k : Nibble) (s : State),
    (∀ j, (h : j < 16) → (keyPress k s).keys[j]'h = if j = k.toNat then true else s.keys[j]'h) ∧
    RegsKept s (keyPress k s) [] ∧ PartsKept s (keyPress k s) [.keys] ∧ BytesKept s (keyPress k s) ∧
    (∀ j, (h : j < 16) → (keyRelease k s).keys[j]'h = if j = k.toNat then false else s.keys[j]'h) ∧
    BytesKept s (keyRelease k s) ∧
    (∀ r, s.waitKey = some r → s.fault = none →
      (keyRelease k s).reg r = k.setWidth 8 ∧ (keyRelease k s).waitKey = none ∧ (keyRelease k s).paused = false ∧
      RegsKept s (keyRelease k s) [r] ∧ PartsKept s (keyRelease k s) [.keys, .run]) ∧
    ((s.waitKey = none ∨ s.fault ≠ none) →
      RegsKept s (keyRelease k s) [] ∧ PartsKept s (keyRelease k s) [.keys])

/-- R132 and R133 (D18, log 16): pause sets the flag; resume clears it unless a key wait is armed. -/
def Obligations.PauseAndResumeMoveOnlyFlag : Prop :=
  ∀ s : State,
    (hostPause s).paused = true ∧ (hostPause s).waitKey = s.waitKey ∧
    RegsKept s (hostPause s) [] ∧ PartsKept s (hostPause s) [.run] ∧ BytesKept s (hostPause s) ∧
    (s.waitKey ≠ none → hostResume s = s) ∧
    (s.waitKey = none → (hostResume s).paused = false ∧ (hostResume s).waitKey = none ∧
      RegsKept s (hostResume s) [] ∧ PartsKept s (hostResume s) [.run] ∧ BytesKept s (hostResume s))

/-- R278, R279 (D33, log 20): in `Halted` no sequence of steps, ticks and events other than `Reset` and a load that fits
changes anything but the keys and the pause flag; the latch stays. -/
def Obligations.HaltedUntilResetOrLoad : Prop :=
  ∀ (slots : List Slot) (s t : State) (out : List Notification), s.runState = .halted →
    (∀ slot ∈ slots, slot ≠ .event .reset ∧ ∀ bytes, slot = .event (.loadRom bytes) → 3584 < bytes.length) →
    runSlots slots s = .next (t, out) →
    t.fault = s.fault ∧ t.runState = .halted ∧ t.waitKey = s.waitKey ∧
    RegsKept s t [] ∧ PartsKept s t [.keys, .run] ∧ BytesKept s t

/-- R135: the table of run states, every row. -/
def Obligations.RunStateTransitionsFollowTable : Prop :=
  ∀ (slot : Slot) (s t : State) (out : List Notification), runSlot slot s = .next (t, out) →
    match slot with
    | .step =>
      (s.runState ≠ .running → t.runState = s.runState) ∧
      (s.runState = .running → raisedCause s ≠ none → t.runState = .halted) ∧
      (s.runState = .running → raisedCause s = none →
        ((∃ x, decode s.opcode = some (.ldVxK x)) → t.runState = .waitingForKey) ∧
        ((∀ x, decode s.opcode ≠ some (.ldVxK x)) → t.runState = .running))
    | .tickPart => t.runState = s.runState
    | .event .reset => t.runState = .paused
    | .event (.loadRom bytes) =>
      (bytes.length ≤ 3584 → t.runState = .running) ∧ (3584 < bytes.length → t = s ∧ out ≠ [])
    | .event .hostPause => t.runState = if s.runState = .running then .paused else s.runState
    | .event .hostResume => t.runState = if s.runState = .paused then .running else s.runState
    | .event (.keyPress _) => t.runState = s.runState
    | .event (.keyRelease _) => t.runState = if s.runState = .waitingForKey then .running else s.runState

/-- R5 (D34, log 4), R33, R79: along any run the configuration never changes, the keys change only by key events, and
without loads and resets memory changes only by steps. -/
def Obligations.OutsideInputsChangeOnlyFromOutside : Prop :=
  ∀ (slots : List Slot) (s t : State) (out : List Notification), runSlots slots s = .next (t, out) →
    t.cfg = s.cfg ∧
    ((∀ slot ∈ slots, ∀ k, slot ≠ .event (.keyPress k) ∧ slot ≠ .event (.keyRelease k)) → t.keys = s.keys) ∧
    ((∀ slot ∈ slots, slot ≠ .step ∧ slot ≠ .event .reset ∧ ∀ bytes, slot ≠ .event (.loadRom bytes)) →
      t.mem = s.mem)

/-! ### The end of a run -/

/-- The end of a run is the model's own definition (R125 asks for one; D35, U17, log 25): a finished machine stays in its
state for ever, and a `Running` machine whose step changes nothing is finished or runs a `JP V0` to its own address. -/
def Obligations.FinishedMachineLoopsInPlace : Prop :=
  ∀ s : State,
    (s.finished → ∀ n, Sys2Proof.core.run n s = .next s) ∧
    (s.runState = .running → step s = .next s →
      s.finished ∨ ∃ nnn, decode s.opcode = some (.jpV0 nnn) ∧ nnn.toNat + (s.reg 0#4).toNat = s.pc.toNat)

/-- A run that ends (R125, D35, log 25) ends once, in one state, is in that state from then on, and was `Running` in every
state before it. -/
def Obligations.RunEndsOnceAndStays : Prop :=
  ∀ (n : Nat) (s t : State), EndsAt n s t →
    (∀ m u, EndsAt m s u → m = n ∧ u = t) ∧
    (∀ k, n ≤ k → Sys2Proof.core.run k s = .next t) ∧
    (∀ k, k ≤ n → ∃ u, Sys2Proof.core.run k s = .next u ∧ u.runState = .running)
end

