-- ==== Sys2Proof/Laws/Decode.lean ====
section
/-! SUPPORT. Fields and words in arithmetic: what the extractors take from an opcode, what a composed word's fields are,
and when a record of each format matches. -/

namespace Sys2Proof

/-! ### Fields of an opcode -/

/-- An extractor whose mask covers its field takes the bits from its shift on. -/
theorem take_eq_extract (w : Nat) (op mask : Word) (sh : Nat)
    (h : ∀ i, i < w → mask.getLsbD (sh + i) = true) : Extractor.take ⟨mask, sh⟩ w op = op.extractLsb' sh w := by
  apply BitVec.eq_of_getLsbD_eq
  intro i hi
  simp [Extractor.take, h i hi, hi]

theorem toNat_take (w : Nat) (op mask : Word) (sh : Nat) (h : ∀ i, i < w → mask.getLsbD (sh + i) = true) :
    (Extractor.take ⟨mask, sh⟩ w op).toNat = op.toNat / 2 ^ sh % 2 ^ w := by
  rw [take_eq_extract w op mask sh h, BitVec.extractLsb'_toNat, Nat.shiftRight_eq_div_pow]

theorem toNat_fieldX (op : Word) : (fieldX op).toNat = op.toNat / 256 % 16 := toNat_take 4 op _ 8 (by decide)

theorem toNat_fieldY (op : Word) : (fieldY op).toNat = op.toNat / 16 % 16 := toNat_take 4 op _ 4 (by decide)

theorem toNat_fieldN (op : Word) : (fieldN op).toNat = op.toNat % 16 :=
  (toNat_take 4 op 0x000F#16 0 (by decide)).trans (by simp)

theorem toNat_fieldKk (op : Word) : (fieldKk op).toNat = op.toNat % 256 :=
  (toNat_take 8 op 0x00FF#16 0 (by decide)).trans (by simp)

theorem toNat_fieldNnn (op : Word) : (fieldNnn op).toNat = op.toNat % 4096 :=
  (toNat_take 12 op 0x0FFF#16 0 (by decide)).trans (by simp)

/-! ### Words composed of fields -/

theorem toNat_wordX (h x : Nibble) (l : Byte) : (wordX h x l).toNat = h.toNat * 4096 + x.toNat * 256 + l.toNat := by
  simp only [wordX, BitVec.toNat_ofNat]; omega

theorem toNat_wordXY (h x y l : Nibble) :
    (wordXY h x y l).toNat = h.toNat * 4096 + x.toNat * 256 + y.toNat * 16 + l.toNat := by
  simp only [wordXY, BitVec.toNat_ofNat]; omega

theorem toNat_wordA (h : Nibble) (a : Addr12) : (wordA h a).toNat = h.toNat * 4096 + a.toNat := by
  simp only [wordA, BitVec.toNat_ofNat]; omega

theorem toNat_bigEndian (hi lo : Byte) : (bigEndian hi lo).toNat = hi.toNat * 256 + lo.toNat := by
  simp only [bigEndian, BitVec.toNat_ofNat]; omega

@[simp] theorem bigEndian_bytes (op : Word) : bigEndian (highByte op) (lowByte op) = op := by
  apply BitVec.eq_of_toNat_eq
  rw [toNat_bigEndian]
  simp only [highByte, lowByte, BitVec.toNat_ofNat]; omega

@[simp] theorem fieldX_wordX (h x : Nibble) (l : Byte) : fieldX (wordX h x l) = x := by
  apply BitVec.eq_of_toNat_eq; rw [toNat_fieldX, toNat_wordX]; omega

@[simp] theorem fieldKk_wordX (h x : Nibble) (l : Byte) : fieldKk (wordX h x l) = l := by
  apply BitVec.eq_of_toNat_eq; rw [toNat_fieldKk, toNat_wordX]; omega

@[simp] theorem fieldX_wordXY (h x y l : Nibble) : fieldX (wordXY h x y l) = x := by
  apply BitVec.eq_of_toNat_eq; rw [toNat_fieldX, toNat_wordXY]; omega

@[simp] theorem fieldY_wordXY (h x y l : Nibble) : fieldY (wordXY h x y l) = y := by
  apply BitVec.eq_of_toNat_eq; rw [toNat_fieldY, toNat_wordXY]; omega

@[simp] theorem fieldN_wordXY (h x y l : Nibble) : fieldN (wordXY h x y l) = l := by
  apply BitVec.eq_of_toNat_eq; rw [toNat_fieldN, toNat_wordXY]; omega

@[simp] theorem fieldNnn_wordA (h : Nibble) (a : Addr12) : fieldNnn (wordA h a) = a := by
  apply BitVec.eq_of_toNat_eq; rw [toNat_fieldNnn, toNat_wordA]; omega

/-! ### When a record matches -/

theorem toNat_and_split (op : Word) (lowMask : Nat) (h : lowMask < 4096) :
    (op &&& BitVec.ofNat 16 (0xF000 + lowMask)).toNat = op.toNat / 4096 * 4096 + (op.toNat % 4096 &&& lowMask) := by
  have hm : (0xF000 + lowMask) % 2 ^ 16 = 0xF000 + lowMask := by omega
  have hd := Nat.and_div_two_pow (a := op.toNat) (b := 0xF000 + lowMask) (n := 12)
  have hr := Nat.and_mod_two_pow (a := op.toNat) (b := 0xF000 + lowMask) (n := 12)
  have e1 : (0xF000 + lowMask) / 2 ^ 12 = 2 ^ 4 - 1 := by omega
  have e2 : (0xF000 + lowMask) % 2 ^ 12 = lowMask := by omega
  rw [e1, Nat.and_two_pow_sub_one_eq_mod] at hd
  rw [e2] at hr
  rw [BitVec.toNat_and, BitVec.toNat_ofNat, hm, show (4096 : Nat) = 2 ^ 12 from rfl, ← hr]
  have := op.isLt
  omega

/-- The value `op AND 0xF000` keeps (formats A, XB, XYN). -/
theorem toNat_and_F000 (op : Word) : (op &&& 0xF000#16).toNat = op.toNat / 4096 * 4096 := by
  refine (toNat_and_split op 0 (by decide)).trans ?_
  rw [Nat.and_zero, Nat.add_zero]

/-- The value `op AND 0xF00F` keeps (format XY). -/
theorem toNat_and_F00F (op : Word) : (op &&& 0xF00F#16).toNat = op.toNat / 4096 * 4096 + op.toNat % 16 := by
  have h := Nat.and_two_pow_sub_one_eq_mod (op.toNat % 4096) 4
  have := toNat_and_split op 15 (by decide)
  rw [show (15 : Nat) = 2 ^ 4 - 1 from rfl, h] at this
  refine Eq.trans this ?_
  omega

/-- The value `op AND 0xF0FF` keeps (format X). -/
theorem toNat_and_F0FF (op : Word) : (op &&& 0xF0FF#16).toNat = op.toNat / 4096 * 4096 + op.toNat % 256 := by
  have h := Nat.and_two_pow_sub_one_eq_mod (op.toNat % 4096) 8
  have := toNat_and_split op 255 (by decide)
  rw [show (255 : Nat) = 2 ^ 8 - 1 from rfl, h] at this
  refine Eq.trans this ?_
  omega

@[simp] theorem build_recZ (p : Word) (i : Instr) (op : Word) : (recZ p i).build op = i := rfl

@[simp] theorem build_recA (p : Word) (f : Addr12 → Instr) (op : Word) : (recA p f).build op = f (fieldNnn op) := rfl

@[simp] theorem build_recXB (p : Word) (f : Reg → Byte → Instr) (op : Word) :
    (recXB p f).build op = f (fieldX op) (fieldKk op) := rfl

@[simp] theorem build_recXY (p : Word) (f : Reg → Reg → Instr) (op : Word) :
    (recXY p f).build op = f (fieldX op) (fieldY op) := rfl

@[simp] theorem build_recXYN (p : Word) (f : Reg → Reg → Nibble → Instr) (op : Word) :
    (recXYN p f).build op = f (fieldX op) (fieldY op) (fieldN op) := rfl

@[simp] theorem build_recX (p : Word) (f : Reg → Instr) (op : Word) : (recX p f).build op = f (fieldX op) := rfl

/-- A format-Z record matches its own word only. -/
theorem hits_recZ (p : Word) (i : Instr) (op : Word) : (recZ p i).hits op = decide (op.toNat = p.toNat) := by
  rw [Bool.eq_iff_iff, decide_eq_true_iff, Record.hits, beq_iff_eq, ← BitVec.toNat_inj]
  have : op &&& (recZ p i).mask = op := BitVec.and_allOnes
  rw [this]; rfl

/-- A format-A record matches by the top nibble. -/
theorem hits_recA (p : Word) (f : Addr12 → Instr) (op : Word) (hp : p.toNat % 4096 = 0) :
    (recA p f).hits op = decide (op.toNat / 4096 = p.toNat / 4096) := by
  rw [Bool.eq_iff_iff, decide_eq_true_iff, Record.hits, beq_iff_eq, ← BitVec.toNat_inj]
  show (op &&& 0xF000#16).toNat = p.toNat ↔ _
  rw [toNat_and_F000]; omega

/-- A format-XB record matches by the top nibble. -/
theorem hits_recXB (p : Word) (f : Reg → Byte → Instr) (op : Word) (hp : p.toNat % 4096 = 0) :
    (recXB p f).hits op = decide (op.toNat / 4096 = p.toNat / 4096) :=
  (hits_recA p (fun _ => .cls) op hp : _)

/-- A format-XYN record matches by the top nibble. -/
theorem hits_recXYN (p : Word) (f : Reg → Reg → Nibble → Instr) (op : Word) (hp : p.toNat % 4096 = 0) :
    (recXYN p f).hits op = decide (op.toNat / 4096 = p.toNat / 4096) :=
  (hits_recA p (fun _ => .cls) op hp : _)

/-- A format-XY record matches by the top and the lowest nibble. -/
theorem hits_recXY (p : Word) (f : Reg → Reg → Instr) (op : Word) (hp : p.toNat / 16 % 256 = 0) :
    (recXY p f).hits op = decide (op.toNat / 4096 = p.toNat / 4096 ∧ op.toNat % 16 = p.toNat % 16) := by
  rw [Bool.eq_iff_iff, decide_eq_true_iff, Record.hits, beq_iff_eq, ← BitVec.toNat_inj]
  show (op &&& 0xF00F#16).toNat = p.toNat ↔ _
  rw [toNat_and_F00F]; omega

/-- A format-X record matches by the top nibble and the low byte. -/
theorem hits_recX (p : Word) (f : Reg → Instr) (op : Word) (hp : p.toNat / 256 % 16 = 0) :
    (recX p f).hits op = decide (op.toNat / 4096 = p.toNat / 4096 ∧ op.toNat % 256 = p.toNat % 256) := by
  rw [Bool.eq_iff_iff, decide_eq_true_iff, Record.hits, beq_iff_eq, ← BitVec.toNat_inj]
  show (op &&& 0xF0FF#16).toNat = p.toNat ↔ _
  rw [toNat_and_F0FF]; omega

/-- What the first-match scan answers is a matching record's instruction. -/
theorem firstMatch_some {op : Word} {i : Instr} {rs : List Record} (h : firstMatch op rs = some i) :
    ∃ r ∈ rs, r.hits op = true ∧ r.build op = i := by
  induction rs with
  | nil => cases h
  | cons r rs ih =>
    unfold firstMatch at h
    split at h <;> rename_i hr
    · exact ⟨r, by simp, hr, by simpa using h⟩
    · obtain ⟨r', hm, hh⟩ := ih h
      exact ⟨r', List.mem_cons_of_mem _ hm, hh⟩

/-- The scan answers nothing exactly when no record matches. -/
theorem firstMatch_none {op : Word} {rs : List Record} :
    firstMatch op rs = none ↔ ∀ r ∈ rs, r.hits op = false := by
  induction rs with
  | nil => simp [firstMatch]
  | cons r rs ih =>
    unfold firstMatch
    cases hr : r.hits op <;> simp [hr, ih]

/-! ### What the tests of a record see of a composed word -/

theorem wordX_top (h x : Nibble) (l : Byte) : (wordX h x l).toNat / 4096 = h.toNat := by rw [toNat_wordX]; omega

theorem wordX_low (h x : Nibble) (l : Byte) : (wordX h x l).toNat % 256 = l.toNat := by rw [toNat_wordX]; omega

theorem wordXY_top (h x y l : Nibble) : (wordXY h x y l).toNat / 4096 = h.toNat := by rw [toNat_wordXY]; omega

theorem wordXY_low (h x y l : Nibble) : (wordXY h x y l).toNat % 16 = l.toNat := by rw [toNat_wordXY]; omega

theorem wordA_top (h : Nibble) (a : Addr12) : (wordA h a).toNat / 4096 = h.toNat := by rw [toNat_wordA]; omega

/-- A word whose top nibble is not 0 is none of the format-Z words. -/
theorem ne_of_top {w : Word} {n : Nat} (hn : n < 4096) (h : w.toNat / 4096 ≠ 0) : ¬ w.toNat = n := by omega

end Sys2Proof
end

