-- ==== Sys2Proof/Laws/State.lean ====
section
/-! SUPPORT. One lemma per field per named update of the state, true by rfl. -/

namespace Sys2Proof.Machine

variable (s : State)

@[simp] theorem State.setReg_V (x : Reg) (v : Byte) : (s.setReg x v).V = s.V.set x.toNat v x.isLt := rfl
@[simp] theorem State.setReg_I (x : Reg) (v : Byte) : (s.setReg x v).I = s.I := rfl
@[simp] theorem State.setReg_pc (x : Reg) (v : Byte) : (s.setReg x v).pc = s.pc := rfl
@[simp] theorem State.setReg_sp (x : Reg) (v : Byte) : (s.setReg x v).sp = s.sp := rfl
@[simp] theorem State.setReg_stack (x : Reg) (v : Byte) : (s.setReg x v).stack = s.stack := rfl
@[simp] theorem State.setReg_DT (x : Reg) (v : Byte) : (s.setReg x v).DT = s.DT := rfl
@[simp] theorem State.setReg_ST (x : Reg) (v : Byte) : (s.setReg x v).ST = s.ST := rfl
@[simp] theorem State.setReg_mem (x : Reg) (v : Byte) : (s.setReg x v).mem = s.mem := rfl
@[simp] theorem State.setReg_keys (x : Reg) (v : Byte) : (s.setReg x v).keys = s.keys := rfl
@[simp] theorem State.setReg_px (x : Reg) (v : Byte) : (s.setReg x v).px = s.px := rfl
@[simp] theorem State.setReg_paused (x : Reg) (v : Byte) : (s.setReg x v).paused = s.paused := rfl
@[simp] theorem State.setReg_waitKey (x : Reg) (v : Byte) : (s.setReg x v).waitKey = s.waitKey := rfl
@[simp] theorem State.setReg_fault (x : Reg) (v : Byte) : (s.setReg x v).fault = s.fault := rfl
@[simp] theorem State.setReg_frameDirty (x : Reg) (v : Byte) : (s.setReg x v).frameDirty = s.frameDirty := rfl
@[simp] theorem State.setReg_soundOn (x : Reg) (v : Byte) : (s.setReg x v).soundOn = s.soundOn := rfl
@[simp] theorem State.setReg_draws (x : Reg) (v : Byte) : (s.setReg x v).draws = s.draws := rfl
@[simp] theorem State.setReg_cfg (x : Reg) (v : Byte) : (s.setReg x v).cfg = s.cfg := rfl

@[simp] theorem State.setI_V (v : Word) : (s.setI v).V = s.V := rfl
@[simp] theorem State.setI_I (v : Word) : (s.setI v).I = v := rfl
@[simp] theorem State.setI_pc (v : Word) : (s.setI v).pc = s.pc := rfl
@[simp] theorem State.setI_sp (v : Word) : (s.setI v).sp = s.sp := rfl
@[simp] theorem State.setI_stack (v : Word) : (s.setI v).stack = s.stack := rfl
@[simp] theorem State.setI_DT (v : Word) : (s.setI v).DT = s.DT := rfl
@[simp] theorem State.setI_ST (v : Word) : (s.setI v).ST = s.ST := rfl
@[simp] theorem State.setI_mem (v : Word) : (s.setI v).mem = s.mem := rfl
@[simp] theorem State.setI_keys (v : Word) : (s.setI v).keys = s.keys := rfl
@[simp] theorem State.setI_px (v : Word) : (s.setI v).px = s.px := rfl
@[simp] theorem State.setI_paused (v : Word) : (s.setI v).paused = s.paused := rfl
@[simp] theorem State.setI_waitKey (v : Word) : (s.setI v).waitKey = s.waitKey := rfl
@[simp] theorem State.setI_fault (v : Word) : (s.setI v).fault = s.fault := rfl
@[simp] theorem State.setI_frameDirty (v : Word) : (s.setI v).frameDirty = s.frameDirty := rfl
@[simp] theorem State.setI_soundOn (v : Word) : (s.setI v).soundOn = s.soundOn := rfl
@[simp] theorem State.setI_draws (v : Word) : (s.setI v).draws = s.draws := rfl
@[simp] theorem State.setI_cfg (v : Word) : (s.setI v).cfg = s.cfg := rfl

@[simp] theorem State.setPc_V (v : Word) : (s.setPc v).V = s.V := rfl
@[simp] theorem State.setPc_I (v : Word) : (s.setPc v).I = s.I := rfl
@[simp] theorem State.setPc_pc (v : Word) : (s.setPc v).pc = v := rfl
@[simp] theorem State.setPc_sp (v : Word) : (s.setPc v).sp = s.sp := rfl
@[simp] theorem State.setPc_stack (v : Word) : (s.setPc v).stack = s.stack := rfl
@[simp] theorem State.setPc_DT (v : Word) : (s.setPc v).DT = s.DT := rfl
@[simp] theorem State.setPc_ST (v : Word) : (s.setPc v).ST = s.ST := rfl
@[simp] theorem State.setPc_mem (v : Word) : (s.setPc v).mem = s.mem := rfl
@[simp] theorem State.setPc_keys (v : Word) : (s.setPc v).keys = s.keys := rfl
@[simp] theorem State.setPc_px (v : Word) : (s.setPc v).px = s.px := rfl
@[simp] theorem State.setPc_paused (v : Word) : (s.setPc v).paused = s.paused := rfl
@[simp] theorem State.setPc_waitKey (v : Word) : (s.setPc v).waitKey = s.waitKey := rfl
@[simp] theorem State.setPc_fault (v : Word) : (s.setPc v).fault = s.fault := rfl
@[simp] theorem State.setPc_frameDirty (v : Word) : (s.setPc v).frameDirty = s.frameDirty := rfl
@[simp] theorem State.setPc_soundOn (v : Word) : (s.setPc v).soundOn = s.soundOn := rfl
@[simp] theorem State.setPc_draws (v : Word) : (s.setPc v).draws = s.draws := rfl
@[simp] theorem State.setPc_cfg (v : Word) : (s.setPc v).cfg = s.cfg := rfl

@[simp] theorem State.setDT_V (v : Byte) : (s.setDT v).V = s.V := rfl
@[simp] theorem State.setDT_I (v : Byte) : (s.setDT v).I = s.I := rfl
@[simp] theorem State.setDT_pc (v : Byte) : (s.setDT v).pc = s.pc := rfl
@[simp] theorem State.setDT_sp (v : Byte) : (s.setDT v).sp = s.sp := rfl
@[simp] theorem State.setDT_stack (v : Byte) : (s.setDT v).stack = s.stack := rfl
@[simp] theorem State.setDT_DT (v : Byte) : (s.setDT v).DT = v := rfl
@[simp] theorem State.setDT_ST (v : Byte) : (s.setDT v).ST = s.ST := rfl
@[simp] theorem State.setDT_mem (v : Byte) : (s.setDT v).mem = s.mem := rfl
@[simp] theorem State.setDT_keys (v : Byte) : (s.setDT v).keys = s.keys := rfl
@[simp] theorem State.setDT_px (v : Byte) : (s.setDT v).px = s.px := rfl
@[simp] theorem State.setDT_paused (v : Byte) : (s.setDT v).paused = s.paused := rfl
@[simp] theorem State.setDT_waitKey (v : Byte) : (s.setDT v).waitKey = s.waitKey := rfl
@[simp] theorem State.setDT_fault (v : Byte) : (s.setDT v).fault = s.fault := rfl
@[simp] theorem State.setDT_frameDirty (v : Byte) : (s.setDT v).frameDirty = s.frameDirty := rfl
@[simp] theorem State.setDT_soundOn (v : Byte) : (s.setDT v).soundOn = s.soundOn := rfl
@[simp] theorem State.setDT_draws (v : Byte) : (s.setDT v).draws = s.draws := rfl
@[simp] theorem State.setDT_cfg (v : Byte) : (s.setDT v).cfg = s.cfg := rfl

@[simp] theorem State.setST_V (v : Byte) : (s.setST v).V = s.V := rfl
@[simp] theorem State.setST_I (v : Byte) : (s.setST v).I = s.I := rfl
@[simp] theorem State.setST_pc (v : Byte) : (s.setST v).pc = s.pc := rfl
@[simp] theorem State.setST_sp (v : Byte) : (s.setST v).sp = s.sp := rfl
@[simp] theorem State.setST_stack (v : Byte) : (s.setST v).stack = s.stack := rfl
@[simp] theorem State.setST_DT (v : Byte) : (s.setST v).DT = s.DT := rfl
@[simp] theorem State.setST_ST (v : Byte) : (s.setST v).ST = v := rfl
@[simp] theorem State.setST_mem (v : Byte) : (s.setST v).mem = s.mem := rfl
@[simp] theorem State.setST_keys (v : Byte) : (s.setST v).keys = s.keys := rfl
@[simp] theorem State.setST_px (v : Byte) : (s.setST v).px = s.px := rfl
@[simp] theorem State.setST_paused (v : Byte) : (s.setST v).paused = s.paused := rfl
@[simp] theorem State.setST_waitKey (v : Byte) : (s.setST v).waitKey = s.waitKey := rfl
@[simp] theorem State.setST_fault (v : Byte) : (s.setST v).fault = s.fault := rfl
@[simp] theorem State.setST_frameDirty (v : Byte) : (s.setST v).frameDirty = s.frameDirty := rfl
@[simp] theorem State.setST_soundOn (v : Byte) : (s.setST v).soundOn = s.soundOn := rfl
@[simp] theorem State.setST_draws (v : Byte) : (s.setST v).draws = s.draws := rfl
@[simp] theorem State.setST_cfg (v : Byte) : (s.setST v).cfg = s.cfg := rfl

@[simp] theorem State.setMem_V (m : Memory) : (s.setMem m).V = s.V := rfl
@[simp] theorem State.setMem_I (m : Memory) : (s.setMem m).I = s.I := rfl
@[simp] theorem State.setMem_pc (m : Memory) : (s.setMem m).pc = s.pc := rfl
@[simp] theorem State.setMem_sp (m : Memory) : (s.setMem m).sp = s.sp := rfl
@[simp] theorem State.setMem_stack (m : Memory) : (s.setMem m).stack = s.stack := rfl
@[simp] theorem State.setMem_DT (m : Memory) : (s.setMem m).DT = s.DT := rfl
@[simp] theorem State.setMem_ST (m : Memory) : (s.setMem m).ST = s.ST := rfl
@[simp] theorem State.setMem_mem (m : Memory) : (s.setMem m).mem = m := rfl
@[simp] theorem State.setMem_keys (m : Memory) : (s.setMem m).keys = s.keys := rfl
@[simp] theorem State.setMem_px (m : Memory) : (s.setMem m).px = s.px := rfl
@[simp] theorem State.setMem_paused (m : Memory) : (s.setMem m).paused = s.paused := rfl
@[simp] theorem State.setMem_waitKey (m : Memory) : (s.setMem m).waitKey = s.waitKey := rfl
@[simp] theorem State.setMem_fault (m : Memory) : (s.setMem m).fault = s.fault := rfl
@[simp] theorem State.setMem_frameDirty (m : Memory) : (s.setMem m).frameDirty = s.frameDirty := rfl
@[simp] theorem State.setMem_soundOn (m : Memory) : (s.setMem m).soundOn = s.soundOn := rfl
@[simp] theorem State.setMem_draws (m : Memory) : (s.setMem m).draws = s.draws := rfl
@[simp] theorem State.setMem_cfg (m : Memory) : (s.setMem m).cfg = s.cfg := rfl

@[simp] theorem State.setGrid_V (g : Grid) : (s.setGrid g).V = s.V := rfl
@[simp] theorem State.setGrid_I (g : Grid) : (s.setGrid g).I = s.I := rfl
@[simp] theorem State.setGrid_pc (g : Grid) : (s.setGrid g).pc = s.pc := rfl
@[simp] theorem State.setGrid_sp (g : Grid) : (s.setGrid g).sp = s.sp := rfl
@[simp] theorem State.setGrid_stack (g : Grid) : (s.setGrid g).stack = s.stack := rfl
@[simp] theorem State.setGrid_DT (g : Grid) : (s.setGrid g).DT = s.DT := rfl
@[simp] theorem State.setGrid_ST (g : Grid) : (s.setGrid g).ST = s.ST := rfl
@[simp] theorem State.setGrid_mem (g : Grid) : (s.setGrid g).mem = s.mem := rfl
@[simp] theorem State.setGrid_keys (g : Grid) : (s.setGrid g).keys = s.keys := rfl
@[simp] theorem State.setGrid_px (g : Grid) : (s.setGrid g).px = g := rfl
@[simp] theorem State.setGrid_paused (g : Grid) : (s.setGrid g).paused = s.paused := rfl
@[simp] theorem State.setGrid_waitKey (g : Grid) : (s.setGrid g).waitKey = s.waitKey := rfl
@[simp] theorem State.setGrid_fault (g : Grid) : (s.setGrid g).fault = s.fault := rfl
@[simp] theorem State.setGrid_frameDirty (g : Grid) : (s.setGrid g).frameDirty = true := rfl
@[simp] theorem State.setGrid_soundOn (g : Grid) : (s.setGrid g).soundOn = s.soundOn := rfl
@[simp] theorem State.setGrid_draws (g : Grid) : (s.setGrid g).draws = s.draws := rfl
@[simp] theorem State.setGrid_cfg (g : Grid) : (s.setGrid g).cfg = s.cfg := rfl

@[simp] theorem State.armWait_V (x : Reg) : (s.armWait x).V = s.V := rfl
@[simp] theorem State.armWait_I (x : Reg) : (s.armWait x).I = s.I := rfl
@[simp] theorem State.armWait_pc (x : Reg) : (s.armWait x).pc = s.pc := rfl
@[simp] theorem State.armWait_sp (x : Reg) : (s.armWait x).sp = s.sp := rfl
@[simp] theorem State.armWait_stack (x : Reg) : (s.armWait x).stack = s.stack := rfl
@[simp] theorem State.armWait_DT (x : Reg) : (s.armWait x).DT = s.DT := rfl
@[simp] theorem State.armWait_ST (x : Reg) : (s.armWait x).ST = s.ST := rfl
@[simp] theorem State.armWait_mem (x : Reg) : (s.armWait x).mem = s.mem := rfl
@[simp] theorem State.armWait_keys (x : Reg) : (s.armWait x).keys = s.keys := rfl
@[simp] theorem State.armWait_px (x : Reg) : (s.armWait x).px = s.px := rfl
@[simp] theorem State.armWait_paused (x : Reg) : (s.armWait x).paused = true := rfl
@[simp] theorem State.armWait_waitKey (x : Reg) : (s.armWait x).waitKey = some x := rfl
@[simp] theorem State.armWait_fault (x : Reg) : (s.armWait x).fault = s.fault := rfl
@[simp] theorem State.armWait_frameDirty (x : Reg) : (s.armWait x).frameDirty = s.frameDirty := rfl
@[simp] theorem State.armWait_soundOn (x : Reg) : (s.armWait x).soundOn = s.soundOn := rfl
@[simp] theorem State.armWait_draws (x : Reg) : (s.armWait x).draws = s.draws := rfl
@[simp] theorem State.armWait_cfg (x : Reg) : (s.armWait x).cfg = s.cfg := rfl

@[simp] theorem State.countDraw_V : (s.countDraw).V = s.V := rfl
@[simp] theorem State.countDraw_I : (s.countDraw).I = s.I := rfl
@[simp] theorem State.countDraw_pc : (s.countDraw).pc = s.pc := rfl
@[simp] theorem State.countDraw_sp : (s.countDraw).sp = s.sp := rfl
@[simp] theorem State.countDraw_stack : (s.countDraw).stack = s.stack := rfl
@[simp] theorem State.countDraw_DT : (s.countDraw).DT = s.DT := rfl
@[simp] theorem State.countDraw_ST : (s.countDraw).ST = s.ST := rfl
@[simp] theorem State.countDraw_mem : (s.countDraw).mem = s.mem := rfl
@[simp] theorem State.countDraw_keys : (s.countDraw).keys = s.keys := rfl
@[simp] theorem State.countDraw_px : (s.countDraw).px = s.px := rfl
@[simp] theorem State.countDraw_paused : (s.countDraw).paused = s.paused := rfl
@[simp] theorem State.countDraw_waitKey : (s.countDraw).waitKey = s.waitKey := rfl
@[simp] theorem State.countDraw_fault : (s.countDraw).fault = s.fault := rfl
@[simp] theorem State.countDraw_frameDirty : (s.countDraw).frameDirty = s.frameDirty := rfl
@[simp] theorem State.countDraw_soundOn : (s.countDraw).soundOn = s.soundOn := rfl
@[simp] theorem State.countDraw_draws : (s.countDraw).draws = s.draws + 1 := rfl
@[simp] theorem State.countDraw_cfg : (s.countDraw).cfg = s.cfg := rfl

@[simp] theorem State.loadLow_V (bytes : List Byte) : (s.loadLow bytes).V = setRegsFrom s.V 0 bytes := rfl
@[simp] theorem State.loadLow_I (bytes : List Byte) : (s.loadLow bytes).I = s.I := rfl
@[simp] theorem State.loadLow_pc (bytes : List Byte) : (s.loadLow bytes).pc = s.pc := rfl
@[simp] theorem State.loadLow_sp (bytes : List Byte) : (s.loadLow bytes).sp = s.sp := rfl
@[simp] theorem State.loadLow_stack (bytes : List Byte) : (s.loadLow bytes).stack = s.stack := rfl
@[simp] theorem State.loadLow_DT (bytes : List Byte) : (s.loadLow bytes).DT = s.DT := rfl
@[simp] theorem State.loadLow_ST (bytes : List Byte) : (s.loadLow bytes).ST = s.ST := rfl
@[simp] theorem State.loadLow_mem (bytes : List Byte) : (s.loadLow bytes).mem = s.mem := rfl
@[simp] theorem State.loadLow_keys (bytes : List Byte) : (s.loadLow bytes).keys = s.keys := rfl
@[simp] theorem State.loadLow_px (bytes : List Byte) : (s.loadLow bytes).px = s.px := rfl
@[simp] theorem State.loadLow_paused (bytes : List Byte) : (s.loadLow bytes).paused = s.paused := rfl
@[simp] theorem State.loadLow_waitKey (bytes : List Byte) : (s.loadLow bytes).waitKey = s.waitKey := rfl
@[simp] theorem State.loadLow_fault (bytes : List Byte) : (s.loadLow bytes).fault = s.fault := rfl
@[simp] theorem State.loadLow_frameDirty (bytes : List Byte) : (s.loadLow bytes).frameDirty = s.frameDirty := rfl
@[simp] theorem State.loadLow_soundOn (bytes : List Byte) : (s.loadLow bytes).soundOn = s.soundOn := rfl
@[simp] theorem State.loadLow_draws (bytes : List Byte) : (s.loadLow bytes).draws = s.draws := rfl
@[simp] theorem State.loadLow_cfg (bytes : List Byte) : (s.loadLow bytes).cfg = s.cfg := rfl

@[simp] theorem advance_V : (advance s).V = s.V := rfl
@[simp] theorem advance_I : (advance s).I = s.I := rfl
@[simp] theorem advance_pc : (advance s).pc = trunc16 (s.pc.toNat + 2) := rfl
@[simp] theorem advance_sp : (advance s).sp = s.sp := rfl
@[simp] theorem advance_stack : (advance s).stack = s.stack := rfl
@[simp] theorem advance_DT : (advance s).DT = s.DT := rfl
@[simp] theorem advance_ST : (advance s).ST = s.ST := rfl
@[simp] theorem advance_mem : (advance s).mem = s.mem := rfl
@[simp] theorem advance_keys : (advance s).keys = s.keys := rfl
@[simp] theorem advance_px : (advance s).px = s.px := rfl
@[simp] theorem advance_paused : (advance s).paused = s.paused := rfl
@[simp] theorem advance_waitKey : (advance s).waitKey = s.waitKey := rfl
@[simp] theorem advance_fault : (advance s).fault = s.fault := rfl
@[simp] theorem advance_frameDirty : (advance s).frameDirty = s.frameDirty := rfl
@[simp] theorem advance_soundOn : (advance s).soundOn = s.soundOn := rfl
@[simp] theorem advance_draws : (advance s).draws = s.draws := rfl
@[simp] theorem advance_cfg : (advance s).cfg = s.cfg := rfl

@[simp] theorem raiseAt_V (a : Word) (op : Option Word) (c : FaultCause) : (raiseAt a op c s).V = s.V := rfl
@[simp] theorem raiseAt_I (a : Word) (op : Option Word) (c : FaultCause) : (raiseAt a op c s).I = s.I := rfl
@[simp] theorem raiseAt_pc (a : Word) (op : Option Word) (c : FaultCause) : (raiseAt a op c s).pc = a := rfl
@[simp] theorem raiseAt_sp (a : Word) (op : Option Word) (c : FaultCause) : (raiseAt a op c s).sp = s.sp := rfl
@[simp] theorem raiseAt_stack (a : Word) (op : Option Word) (c : FaultCause) : (raiseAt a op c s).stack = s.stack := rfl
@[simp] theorem raiseAt_DT (a : Word) (op : Option Word) (c : FaultCause) : (raiseAt a op c s).DT = s.DT := rfl
@[simp] theorem raiseAt_ST (a : Word) (op : Option Word) (c : FaultCause) : (raiseAt a op c s).ST = s.ST := rfl
@[simp] theorem raiseAt_mem (a : Word) (op : Option Word) (c : FaultCause) : (raiseAt a op c s).mem = s.mem := rfl
@[simp] theorem raiseAt_keys (a : Word) (op : Option Word) (c : FaultCause) : (raiseAt a op c s).keys = s.keys := rfl
@[simp] theorem raiseAt_px (a : Word) (op : Option Word) (c : FaultCause) : (raiseAt a op c s).px = s.px := rfl
@[simp] theorem raiseAt_paused (a : Word) (op : Option Word) (c : FaultCause) : (raiseAt a op c s).paused = s.paused := rfl
@[simp] theorem raiseAt_waitKey (a : Word) (op : Option Word) (c : FaultCause) : (raiseAt a op c s).waitKey = s.waitKey := rfl
@[simp] theorem raiseAt_fault (a : Word) (op : Option Word) (c : FaultCause) : (raiseAt a op c s).fault = some ⟨c, a, op⟩ := rfl
@[simp] theorem raiseAt_frameDirty (a : Word) (op : Option Word) (c : FaultCause) : (raiseAt a op c s).frameDirty = s.frameDirty := rfl
@[simp] theorem raiseAt_soundOn (a : Word) (op : Option Word) (c : FaultCause) : (raiseAt a op c s).soundOn = s.soundOn := rfl
@[simp] theorem raiseAt_draws (a : Word) (op : Option Word) (c : FaultCause) : (raiseAt a op c s).draws = s.draws := rfl
@[simp] theorem raiseAt_cfg (a : Word) (op : Option Word) (c : FaultCause) : (raiseAt a op c s).cfg = s.cfg := rfl

@[simp] theorem setFlagThenReg_V (flag : Byte) (x : Reg) (r : Byte) : (setFlagThenReg s flag x r).V = (s.V.set 15 flag).set x.toNat r x.isLt := rfl
@[simp] theorem setFlagThenReg_I (flag : Byte) (x : Reg) (r : Byte) : (setFlagThenReg s flag x r).I = s.I := rfl
@[simp] theorem setFlagThenReg_pc (flag : Byte) (x : Reg) (r : Byte) : (setFlagThenReg s flag x r).pc = s.pc := rfl
@[simp] theorem setFlagThenReg_sp (flag : Byte) (x : Reg) (r : Byte) : (setFlagThenReg s flag x r).sp = s.sp := rfl
@[simp] theorem setFlagThenReg_stack (flag : Byte) (x : Reg) (r : Byte) : (setFlagThenReg s flag x r).stack = s.stack := rfl
@[simp] theorem setFlagThenReg_DT (flag : Byte) (x : Reg) (r : Byte) : (setFlagThenReg s flag x r).DT = s.DT := rfl
@[simp] theorem setFlagThenReg_ST (flag : Byte) (x : Reg) (r : Byte) : (setFlagThenReg s flag x r).ST = s.ST := rfl
@[simp] theorem setFlagThenReg_mem (flag : Byte) (x : Reg) (r : Byte) : (setFlagThenReg s flag x r).mem = s.mem := rfl
@[simp] theorem setFlagThenReg_keys (flag : Byte) (x : Reg) (r : Byte) : (setFlagThenReg s flag x r).keys = s.keys := rfl
@[simp] theorem setFlagThenReg_px (flag : Byte) (x : Reg) (r : Byte) : (setFlagThenReg s flag x r).px = s.px := rfl
@[simp] theorem setFlagThenReg_paused (flag : Byte) (x : Reg) (r : Byte) : (setFlagThenReg s flag x r).paused = s.paused := rfl
@[simp] theorem setFlagThenReg_waitKey (flag : Byte) (x : Reg) (r : Byte) : (setFlagThenReg s flag x r).waitKey = s.waitKey := rfl
@[simp] theorem setFlagThenReg_fault (flag : Byte) (x : Reg) (r : Byte) : (setFlagThenReg s flag x r).fault = s.fault := rfl
@[simp] theorem setFlagThenReg_frameDirty (flag : Byte) (x : Reg) (r : Byte) : (setFlagThenReg s flag x r).frameDirty = s.frameDirty := rfl
@[simp] theorem setFlagThenReg_soundOn (flag : Byte) (x : Reg) (r : Byte) : (setFlagThenReg s flag x r).soundOn = s.soundOn := rfl
@[simp] theorem setFlagThenReg_draws (flag : Byte) (x : Reg) (r : Byte) : (setFlagThenReg s flag x r).draws = s.draws := rfl
@[simp] theorem setFlagThenReg_cfg (flag : Byte) (x : Reg) (r : Byte) : (setFlagThenReg s flag x r).cfg = s.cfg := rfl

end Sys2Proof.Machine
end

