-- ==== Sys2Proof/Laws/Display.lean ====
section
/-! SUPPORT. Reading a pixel after a change of the grid, and what a sprite row and a sprite do (spec/46_display.md). -/

namespace Sys2Proof.Machine

/-- A pixel after one pixel is written. -/
theorem pixel_setTo (g : Grid) (x y : Nat) (lit : Bool) (a b : Nat) :
    (g.setTo x y lit).pixel a b = if x % dispW = a % dispW ∧ y % dispH = b % dispH then lit else g.pixel a b := by
  by_cases hx : x % dispW = a % dispW <;> by_cases hy : y % dispH = b % dispH <;>
    simp [Grid.setTo, Grid.pixel, hx, hy]

/-- `setPixel`: the pixel toggled, every other pixel kept, the old value reported. -/
theorem setPixel_spec (g : Grid) (x y : Nat) :
    (setPixel g x y).2 = g.pixel x y ∧
    ∀ a b, (setPixel g x y).1.pixel a b =
      if x % dispW = a % dispW ∧ y % dispH = b % dispH then !g.pixel a b else g.pixel a b := by
  refine ⟨rfl, fun a b => ?_⟩
  show (g.setTo x y _).pixel a b = _
  rw [pixel_setTo]
  split <;> rename_i h
  · unfold Grid.pixel
    simp only [h.1, h.2]
  · rfl

/-- Two grids with the same pixels are the same grid. -/
theorem Grid.ext_pixel {g h : Grid} (e : ∀ x y, x < dispW → y < dispH → g.pixel x y = h.pixel x y) : g = h := by
  apply Vector.ext
  intro x hx
  apply Vector.ext
  intro y hy
  have := e x y hx hy
  unfold Grid.pixel at this
  simpa only [Nat.mod_eq_of_lt hx, Nat.mod_eq_of_lt hy] using this

/-- The cell at the linear index of a pixel is that pixel (10 R34). -/
theorem cell_linearIndex (g : Grid) (x y : Nat) (hx : x < dispW) : g.cell (linearIndex x y) = g.pixel x y := by
  have h1 : (x + y * dispW) % dispW = x := by rw [Nat.add_mul_mod_self_right, Nat.mod_eq_of_lt hx]
  have h2 : (x + y * dispW) / dispW = y := by
    rw [Nat.add_mul_div_right x y (by decide), Nat.div_eq_of_lt hx, Nat.zero_add]
  unfold Grid.cell linearIndex
  rw [h1, h2]

@[simp] theorem pixel_blankGrid (x y : Nat) : blankGrid.pixel x y = false := by
  simp [blankGrid, Grid.pixel]

/-- Pixel `(a, b)` lies under a 1 bit of the sprite row at column `x`, row `y`, in the columns of `cs`. -/
abbrev rowCovers (row : Byte) (x y a b : Nat) (cs : List Nat) : Prop :=
  ∃ c ∈ cs, spriteBit row c = true ∧ (x + c) % dispW = a % dispW ∧ y % dispH = b % dispH

/-- A run of different columns of a sprite row toggles the covered pixels and reports whether one of them was lit. -/
theorem foldl_drawColumn_spec (row : Byte) (x y : Nat) (cs : List Nat) (hcs : ∀ c ∈ cs, c < 8) (hnd : cs.Nodup)
    (acc : Grid × Bool) :
    (∀ a b, (cs.foldl (drawColumn row x y) acc).1.pixel a b =
      (acc.1.pixel a b ^^ decide (rowCovers row x y a b cs))) ∧
    ((cs.foldl (drawColumn row x y) acc).2 = true ↔
      acc.2 = true ∨ ∃ c ∈ cs, spriteBit row c = true ∧ acc.1.pixel (x + c) y = true) := by
  induction cs generalizing acc with
  | nil => simp [rowCovers]
  | cons c cs ih =>
    have hc8 : c < 8 := hcs c (by simp)
    obtain ⟨hnot, hnd'⟩ := List.nodup_cons.1 hnd
    obtain ⟨h1, h2⟩ := ih (fun d hd => hcs d (List.mem_cons_of_mem _ hd)) hnd' (drawColumn row x y acc c)
    have hdiff : ∀ d ∈ cs, (x + d) % dispW ≠ (x + c) % dispW := fun d hd e => by
      have hd8 := hcs d (List.mem_cons_of_mem _ hd)
      have : d = c := by simp only [dispW] at e; omega
      exact hnot (this ▸ hd)
    rw [List.foldl_cons]
    by_cases hb : spriteBit row c = true
    · have hcol : drawColumn row x y acc c = ((setPixel acc.1 (x + c) y).1, acc.2 || (setPixel acc.1 (x + c) y).2) := by
        simp [drawColumn, hb]
      obtain ⟨p1, p2⟩ := setPixel_spec acc.1 (x + c) y
      rw [hcol] at h1 h2 ⊢
      constructor
      · intro a b
        rw [h1, p2]
        by_cases hhit : (x + c) % dispW = a % dispW ∧ y % dispH = b % dispH
        · have hno : ¬ rowCovers row x y a b cs := fun ⟨d, hd, _, hx, _⟩ => hdiff d hd (hx.trans hhit.1.symm)
          have hyes : rowCovers row x y a b (c :: cs) := ⟨c, by simp, hb, hhit.1, hhit.2⟩
          rw [if_pos hhit, decide_eq_false hno, decide_eq_true hyes]
          cases acc.1.pixel a b <;> rfl
        · have hiff : rowCovers row x y a b (c :: cs) ↔ rowCovers row x y a b cs := by
            constructor
            · rintro ⟨d, hd, hbit, hxy⟩
              rcases List.mem_cons.1 hd with rfl | hd
              · exact absurd hxy hhit
              · exact ⟨d, hd, hbit, hxy⟩
            · rintro ⟨d, hd, h⟩
              exact ⟨d, List.mem_cons_of_mem _ hd, h⟩
          rw [if_neg hhit, decide_eq_decide.2 hiff]
      · rw [h2, p1, Bool.or_eq_true]
        have key : ∀ d ∈ cs, (setPixel acc.1 (x + c) y).1.pixel (x + d) y = acc.1.pixel (x + d) y := fun d hd => by
          rw [p2, if_neg fun h => hdiff d hd h.1.symm]
        constructor
        · rintro ((h | h) | ⟨d, hd, hbit, hlit⟩)
          · exact .inl h
          · exact .inr ⟨c, by simp, hb, h⟩
          · exact .inr ⟨d, List.mem_cons_of_mem _ hd, hbit, by rwa [key d hd] at hlit⟩
        · rintro (h | ⟨d, hd, hbit, hlit⟩)
          · exact .inl (.inl h)
          · rcases List.mem_cons.1 hd with rfl | hd
            · exact .inl (.inr hlit)
            · exact .inr ⟨d, hd, hbit, by rwa [key d hd]⟩
    · have hcol : drawColumn row x y acc c = acc := by simp [drawColumn, hb]
      rw [hcol] at h1 h2 ⊢
      constructor
      · intro a b
        have hiff : rowCovers row x y a b (c :: cs) ↔ rowCovers row x y a b cs := by
          constructor
          · rintro ⟨d, hd, hbit, hxy⟩
            rcases List.mem_cons.1 hd with rfl | hd
            · exact absurd hbit hb
            · exact ⟨d, hd, hbit, hxy⟩
          · rintro ⟨d, hd, h⟩
            exact ⟨d, List.mem_cons_of_mem _ hd, h⟩
        rw [h1, decide_eq_decide.2 hiff]
      · rw [h2]
        constructor
        · rintro (h | ⟨d, hd, h⟩)
          · exact .inl h
          · exact .inr ⟨d, List.mem_cons_of_mem _ hd, h⟩
        · rintro (h | ⟨d, hd, hbit, hlit⟩)
          · exact .inl h
          · rcases List.mem_cons.1 hd with rfl | hd
            · exact absurd hbit hb
            · exact .inr ⟨d, hd, hbit, hlit⟩

/-- A sprite row: the covered pixels toggled, and whether one of them was lit. -/
theorem drawRow_spec (row : Byte) (x y : Nat) (acc : Grid × Bool) :
    (∀ a b, (drawRow row x y acc).1.pixel a b =
      (acc.1.pixel a b ^^ decide (rowCovers row x y a b [0, 1, 2, 3, 4, 5, 6, 7]))) ∧
    ((drawRow row x y acc).2 = true ↔
      acc.2 = true ∨ ∃ c ∈ [0, 1, 2, 3, 4, 5, 6, 7], spriteBit row c = true ∧ acc.1.pixel (x + c) y = true) :=
  foldl_drawColumn_spec row x y _ (by decide) (by decide) acc

/-- Pixel `(a, b)` lies under a 1 bit of the sprite at column `x`, row `y` (46 R232, R233). -/
abbrev spriteCovers (rows : List Byte) (x y a b : Nat) : Prop :=
  ∃ r, r < rows.length ∧ rowCovers (rows.getD r 0#8) x (y + r) a b [0, 1, 2, 3, 4, 5, 6, 7]

/-- The rows of a sprite of at most 32 rows: no pixel is toggled twice (46 R232 (c)), so the covered pixels are toggled,
and the report says whether one of them was lit before. -/
theorem drawRows_spec (rows : List Byte) (x y : Nat) (acc : Grid × Bool) (hlen : rows.length ≤ dispH) :
    (∀ a b, (drawRows rows x y acc).1.pixel a b = (acc.1.pixel a b ^^ decide (spriteCovers rows x y a b))) ∧
    ((drawRows rows x y acc).2 = true ↔
      acc.2 = true ∨ ∃ a b, spriteCovers rows x y a b ∧ acc.1.pixel a b = true) := by
  induction rows generalizing y acc with
  | nil => simp [drawRows, spriteCovers]
  | cons row rows ih =>
    simp only [List.length_cons] at hlen
    obtain ⟨r1, r2⟩ := drawRow_spec row x y acc
    obtain ⟨h1, h2⟩ := ih (y + 1) (drawRow row x y acc) (by omega)
    have hcover : ∀ a b, spriteCovers (row :: rows) x y a b ↔
        rowCovers row x y a b [0, 1, 2, 3, 4, 5, 6, 7] ∨ spriteCovers rows x (y + 1) a b := by
      intro a b
      constructor
      · rintro ⟨r, hr, hc⟩
        cases r with
        | zero => exact .inl hc
        | succ r =>
          exact .inr ⟨r, by simpa using hr, by simpa [Nat.add_assoc, Nat.add_comm 1] using hc⟩
      · rintro (hc | ⟨r, hr, hc⟩)
        · exact ⟨0, by simp, hc⟩
        · exact ⟨r + 1, by simpa using hr, by simpa [Nat.add_assoc, Nat.add_comm 1] using hc⟩
    have hdisj : ∀ a b, rowCovers row x y a b [0, 1, 2, 3, 4, 5, 6, 7] → ¬ spriteCovers rows x (y + 1) a b := by
      rintro a b ⟨_, _, _, _, hy⟩ ⟨r, hr, _, _, _, _, hy'⟩
      have := hy'.trans hy.symm
      simp only [dispH] at this hlen
      omega
    constructor
    · intro a b
      have hd : decide (spriteCovers (row :: rows) x y a b) =
          (decide (rowCovers row x y a b [0, 1, 2, 3, 4, 5, 6, 7]) || decide (spriteCovers rows x (y + 1) a b)) := by
        rw [← Bool.decide_or]
        exact decide_eq_decide.2 (hcover a b)
      rw [drawRows, h1, r1, hd]
      by_cases hc : rowCovers row x y a b [0, 1, 2, 3, 4, 5, 6, 7]
      · rw [decide_eq_true hc, decide_eq_false (hdisj a b hc), Bool.xor_false, Bool.or_false]
      · rw [decide_eq_false hc, Bool.xor_false, Bool.false_or]
    · rw [drawRows, h2, r2]
      constructor
      · rintro ((h | ⟨c, hc, hb, hl⟩) | ⟨a, b, hc, hl⟩)
        · exact .inl h
        · exact .inr ⟨x + c, y, (hcover _ _).2 (.inl ⟨c, hc, hb, rfl, rfl⟩), hl⟩
        · refine .inr ⟨a, b, (hcover a b).2 (.inr hc), ?_⟩
          rw [r1] at hl
          have hno : ¬ rowCovers row x y a b [0, 1, 2, 3, 4, 5, 6, 7] := fun h => hdisj a b h hc
          simpa only [hno, decide_false, Bool.xor_false] using hl
      · rintro (h | ⟨a, b, hc, hl⟩)
        · exact .inl (.inl h)
        · rcases (hcover a b).1 hc with hrow | hrest
          · obtain ⟨c, hm, hb, hx, hy⟩ := hrow
            refine .inl (.inr ⟨c, hm, hb, ?_⟩)
            unfold Grid.pixel at hl ⊢
            simpa only [hx, hy] using hl
          · refine .inr ⟨a, b, hrest, ?_⟩
            have hno : ¬ rowCovers row x y a b [0, 1, 2, 3, 4, 5, 6, 7] := fun h => hdisj a b h hrest
            rw [r1]
            simpa only [hno, decide_false, Bool.xor_false] using hl

end Sys2Proof.Machine
end

