-- ==== Sys2Proof/Laws/Memory.lean ====
section
/-! SUPPORT. What the memory operations do: read after write, the canonical form kept, multi-byte transfers. -/

namespace Sys2Proof.Machine

/-! ### Single cells -/

/-- No cell of `m` lies at or below `addr`. -/
abbrev Memory.above (addr : Nat) (m : Memory) : Prop := ∀ c ∈ m, addr < c.1

theorem Memory.byteAt_of_above {m : Memory} {addr : Nat} (h : Memory.above addr m) :
    m.byteAt addr = Memory.resetByte addr := by
  induction m with
  | nil => rfl
  | cons c m ih =>
    obtain ⟨b, w⟩ := c
    have hb : addr < b := h (b, w) (by simp)
    rw [Memory.byteAt, if_neg (by omega)]
    exact ih fun d hd => h d (List.mem_cons_of_mem _ hd)

theorem Memory.byteAt_put {m : Memory} {addr : Nat} (v : Byte) (h : Memory.above addr m) (a : Nat) :
    (Memory.put addr v m).byteAt a = if a = addr then v else m.byteAt a := by
  unfold Memory.put
  split <;> rename_i hv
  · split <;> rename_i ha
    · rw [ha, Memory.byteAt_of_above h, hv]
    · rfl
  · simp only [Memory.byteAt, eq_comm]

theorem Memory.mem_put {m : Memory} {addr : Nat} {v : Byte} {c : Host.Cell} (h : c ∈ Memory.put addr v m) :
    c = (addr, v) ∨ c ∈ m := by
  unfold Memory.put at h
  split at h
  · exact .inr h
  · simpa using h

theorem Memory.mem_store {m : Memory} {addr : Nat} {v : Byte} {c : Host.Cell} (h : c ∈ m.store addr v) :
    c = (addr, v) ∨ c ∈ m := by
  induction m with
  | nil => exact Memory.mem_put h
  | cons d m ih =>
    obtain ⟨b, w⟩ := d
    unfold Memory.store at h
    split at h
    · exact Memory.mem_put h
    · split at h
      · exact (Memory.mem_put h).imp_right (List.mem_cons_of_mem _)
      · rcases List.mem_cons.1 h with rfl | h
        · exact .inr (by simp)
        · exact (ih h).imp_right (List.mem_cons_of_mem _)

/-- The tail of a canonical memory lies above its head. -/
theorem Memory.wf_tail {c : Host.Cell} {m : Memory} (h : Memory.wf (c :: m)) :
    Memory.wf m ∧ Memory.above c.1 m :=
  ⟨⟨(List.pairwise_cons.1 h.1).2, fun d hd => h.2 d (List.mem_cons_of_mem _ hd)⟩,
    fun d hd => (List.pairwise_cons.1 h.1).1 d hd⟩

theorem Memory.put_wf {m : Memory} {addr : Nat} {v : Byte} (hm : m.wf) (ha : addr < memSize)
    (h : Memory.above addr m) : (Memory.put addr v m).wf := by
  unfold Memory.put
  split <;> rename_i hv
  · exact hm
  · refine ⟨List.pairwise_cons.2 ⟨fun c hc => h c hc, hm.1⟩, fun c hc => ?_⟩
    rcases List.mem_cons.1 hc with rfl | hc
    · exact ⟨ha, hv⟩
    · exact hm.2 c hc

/-- A write keeps the canonical form. -/
theorem Memory.store_wf {m : Memory} {addr : Nat} (v : Byte) (hm : m.wf) (ha : addr < memSize) : (m.store addr v).wf := by
  induction m with
  | nil => exact Memory.put_wf hm ha (by simp)
  | cons c m ih =>
    obtain ⟨b, w⟩ := c
    obtain ⟨ht, habove⟩ := Memory.wf_tail hm
    unfold Memory.store
    split <;> rename_i hlt
    · refine Memory.put_wf hm ha fun d hd => ?_
      rcases List.mem_cons.1 hd with rfl | hd
      · exact hlt
      · exact hlt.trans (habove d hd)
    · split <;> rename_i heq
      · exact Memory.put_wf ht ha (heq ▸ habove)
      · have hw := ih ht
        refine ⟨List.pairwise_cons.2 ⟨fun d hd => ?_, hw.1⟩, fun d hd => ?_⟩
        · rcases Memory.mem_store hd with rfl | hd
          · show b < addr; omega
          · exact habove d hd
        · rcases List.mem_cons.1 hd with rfl | hd
          · exact hm.2 _ (by simp)
          · exact hw.2 d hd

/-- Read after write. -/
theorem Memory.byteAt_store {m : Memory} (addr : Nat) (v : Byte) (hm : m.wf) (a : Nat) :
    (m.store addr v).byteAt a = if a = addr then v else m.byteAt a := by
  induction m with
  | nil => exact Memory.byteAt_put v (by simp) a
  | cons c m ih =>
    obtain ⟨b, w⟩ := c
    obtain ⟨ht, habove⟩ := Memory.wf_tail hm
    unfold Memory.store
    split <;> rename_i hlt
    · refine Memory.byteAt_put v (fun d hd => ?_) a
      rcases List.mem_cons.1 hd with rfl | hd
      · exact hlt
      · exact hlt.trans (habove d hd)
    · split <;> rename_i heq
      · rw [Memory.byteAt_put v (heq ▸ habove) a]
        split <;> rename_i ha
        · rfl
        · rw [Memory.byteAt, if_neg (by omega)]
      · by_cases hba : b = a
        · rw [Memory.byteAt, if_pos hba, if_neg (by omega), Memory.byteAt, if_pos hba]
        · rw [Memory.byteAt, if_neg hba, ih ht, Memory.byteAt, if_neg hba]

/-- Two canonical memories with the same contents are the same list. -/
theorem Memory.ext_byteAt {m n : Memory} (hm : m.wf) (hn : n.wf) (h : ∀ a, m.byteAt a = n.byteAt a) : m = n := by
  induction m generalizing n with
  | nil =>
    cases n with
    | nil => rfl
    | cons d n =>
      have := h d.1
      rw [Memory.byteAt, Memory.byteAt, if_pos rfl] at this
      exact absurd this.symm (hn.2 d (by simp)).2
  | cons c m ih =>
    cases n with
    | nil =>
      have := h c.1
      rw [Memory.byteAt, Memory.byteAt, if_pos rfl] at this
      exact absurd this (hm.2 c (by simp)).2
    | cons d n =>
      obtain ⟨hmt, hma⟩ := Memory.wf_tail hm
      obtain ⟨hnt, hna⟩ := Memory.wf_tail hn
      have key : ∀ a, (if c.1 = a then c.2 else Memory.byteAt m a) = if d.1 = a then d.2 else Memory.byteAt n a := h
      have hcd : c.1 = d.1 := by
        rcases Nat.lt_trichotomy c.1 d.1 with hlt | heq | hgt
        · have := key c.1
          rw [if_pos rfl, if_neg (by omega),
            Memory.byteAt_of_above fun e he => hlt.trans (hna e he)] at this
          exact absurd this (hm.2 c (by simp)).2
        · exact heq
        · have := key d.1
          rw [if_pos rfl, if_neg (by omega),
            Memory.byteAt_of_above fun e he => Nat.lt_trans hgt (hma e he)] at this
          exact absurd this.symm (hn.2 d (by simp)).2
      have hv : c.2 = d.2 := by simpa [hcd] using key c.1
      have hrest : ∀ a, Memory.byteAt m a = Memory.byteAt n a := fun a => by
        by_cases ha : c.1 = a
        · rw [← ha, Memory.byteAt_of_above hma, hcd, Memory.byteAt_of_above hna]
        · simpa [ha, hcd ▸ ha] using key a
      rw [ih hmt hnt hrest, Prod.ext hcd hv]

/-! ### Checked accesses -/

theorem memRead_ok {m : Memory} {a : Nat} (h : a < memSize) : memRead m a = .ok (m.byteAt a) := if_pos h

theorem memRead_error {m : Memory} {a : Nat} (h : memSize ≤ a) : memRead m a = .error a := if_neg (by omega)

theorem memWrite_ok {m : Memory} {a : Nat} (v : Byte) (h : a < memSize) : memWrite m a v = .ok (m.store a v) := if_pos h

theorem memWrite_error {m : Memory} {a : Nat} (v : Byte) (h : memSize ≤ a) : memWrite m a v = .error a :=
  if_neg (by omega)

theorem memWrite_wf {m m' : Memory} {a : Nat} {v : Byte} (hm : m.wf) (h : memWrite m a v = .ok m') : m'.wf := by
  unfold memWrite at h
  split at h <;> rename_i ha
  · injection h with h
    exact h ▸ Memory.store_wf v hm ha
  · cases h

/-- Equal contents read equally through the bounds check. -/
theorem memRead_congr {m n : Memory} {a : Nat} (h : m.byteAt a = n.byteAt a) : memRead m a = memRead n a := by
  unfold memRead; rw [h]

/-- The fetch, by where the address lies. -/
theorem fetch16_cases (m : Memory) (a : Nat) :
    (a + 1 < memSize ∧ fetch16 m a = .ok (bigEndian (m.byteAt a) (m.byteAt (a + 1)))) ∨
    (memSize ≤ a + 1 ∧ fetch16 m a = .error (max a memSize)) := by
  unfold fetch16
  by_cases h : a < memSize
  · rw [memRead_ok h]
    by_cases h' : a + 1 < memSize
    · exact .inl ⟨h', by rw [memRead_ok h']⟩
    · refine .inr ⟨by omega, ?_⟩
      rw [memRead_error (by omega)]
      simp only [Except.error.injEq]; omega
  · refine .inr ⟨by omega, ?_⟩
    rw [memRead_error (by omega)]
    simp only [Except.error.injEq]; omega

/-! ### Transfers of several bytes -/

/-- A read of `n` bytes: all of them, or the lowest out-of-range address. -/
theorem readBytes_cases (m : Memory) (addr n : Nat) :
    ((n = 0 ∨ addr + n ≤ memSize) ∧
      readBytes m addr n = .ok ((List.range n).map fun j => m.byteAt (addr + j))) ∨
    (0 < n ∧ memSize < addr + n ∧ readBytes m addr n = .error (max addr memSize)) := by
  induction n generalizing addr with
  | zero => exact .inl ⟨.inl rfl, rfl⟩
  | succ n ih =>
    unfold readBytes
    by_cases h : addr < memSize
    · rw [memRead_ok h]
      rcases ih (addr + 1) with ⟨hb, hr⟩ | ⟨hn, hb, hr⟩
      · refine .inl ⟨.inr (by omega), ?_⟩
        rw [hr, List.range_succ_eq_map]
        simp [Function.comp_def, Nat.add_assoc, Nat.add_comm 1]
      · refine .inr ⟨by omega, by omega, ?_⟩
        rw [hr]
        simp only [Except.error.injEq]; omega
    · refine .inr ⟨by omega, by omega, ?_⟩
      rw [memRead_error (by omega)]
      simp only [Except.error.injEq]; omega

/-- What bytes put from `addr` on read as. -/
theorem placeBytes_spec {m : Memory} (addr : Nat) (bytes : List Byte) (hm : m.wf)
    (hb : addr + bytes.length ≤ memSize) :
    (placeBytes m addr bytes).wf ∧
    ∀ a, (placeBytes m addr bytes).byteAt a =
      if addr ≤ a ∧ a < addr + bytes.length then bytes.getD (a - addr) 0#8 else m.byteAt a := by
  induction bytes generalizing m addr with
  | nil => exact ⟨hm, fun a => by simp [placeBytes]⟩
  | cons b bs ih =>
    simp only [List.length_cons] at hb
    obtain ⟨hw, hl⟩ := ih (addr + 1) (Memory.store_wf b hm (addr := addr) (by omega)) (by omega)
    refine ⟨hw, fun a => ?_⟩
    rw [placeBytes, hl, Memory.byteAt_store _ _ hm]
    simp only [List.length_cons]
    rcases Nat.lt_trichotomy a addr with h | h | h
    · rw [if_neg (by omega), if_neg (by omega), if_neg (by omega)]
    · subst h
      rw [if_neg (by omega), if_pos rfl, if_pos (by omega)]
      simp
    · obtain ⟨k, rfl⟩ : ∃ k, a = addr + 1 + k := ⟨a - (addr + 1), by omega⟩
      have e1 : addr + 1 + k - (addr + 1) = k := by omega
      have e2 : addr + 1 + k - addr = k + 1 := by omega
      rw [e1, e2, List.getD_cons_succ, if_neg (show ¬ addr + 1 + k = addr by omega)]
      by_cases hk : k < bs.length
      · rw [if_pos (by omega), if_pos (by omega)]
      · rw [if_neg (by omega), if_neg (by omega)]

/-- A write of bytes from `addr` up: `placeBytes`, or the lowest out-of-range address. -/
theorem writeBytes_cases (m : Memory) (addr : Nat) (bytes : List Byte) :
    ((bytes = [] ∨ addr + bytes.length ≤ memSize) ∧ writeBytes m addr bytes = .ok (placeBytes m addr bytes)) ∨
    (bytes ≠ [] ∧ memSize < addr + bytes.length ∧ writeBytes m addr bytes = .error (max addr memSize)) := by
  induction bytes generalizing m addr with
  | nil => exact .inl ⟨.inl rfl, rfl⟩
  | cons b bs ih =>
    unfold writeBytes
    simp only [List.length_cons]
    by_cases h : addr < memSize
    · rw [memWrite_ok b h]
      rcases ih (m.store addr b) (addr + 1) with ⟨hb, hr⟩ | ⟨hn, hb, hr⟩
      · refine .inl ⟨.inr ?_, hr⟩
        rcases hb with rfl | hb
        · simpa using h
        · omega
      · refine .inr ⟨by simp, by omega, ?_⟩
        dsimp only; rw [hr]; simp only [Except.error.injEq]; omega
    · refine .inr ⟨by simp, by omega, ?_⟩
      rw [memWrite_error b (by omega)]
      simp only [Except.error.injEq]; omega

/-- A write of bytes keeps the canonical form. -/
theorem writeBytes_wf {m m' : Memory} {addr : Nat} {bytes : List Byte} (hm : m.wf)
    (h : writeBytes m addr bytes = .ok m') : m'.wf := by
  rcases writeBytes_cases m addr bytes with ⟨hb, hr⟩ | ⟨_, _, hr⟩
  · rw [hr] at h
    injection h with h
    subst h
    rcases hb with rfl | hb
    · exact hm
    · exact (placeBytes_spec addr bytes hm hb).1
  · rw [hr] at h; cases h

/-- Memory with nothing listed has the canonical form. -/
theorem Memory.nil_wf : Memory.wf [] := ⟨List.Pairwise.nil, by simp⟩

/-! ### Memory after a reset -/

/-- Every address past the font reads 0 when unlisted. -/
theorem Memory.resetByte_of_le {a : Nat} (h : fontSize ≤ a) : Memory.resetByte a = 0#8 := by
  rw [Memory.resetByte, if_neg (Nat.not_lt_zero a)]
  exact List.getD_eq_default _ _ h

/-- What memory holds after a reset that installs a font: the canonical form, the font's bytes, zero elsewhere. -/
theorem fontMemory_spec (font : Vector Byte fontSize) :
    (fontMemory font).wf ∧
    ∀ a, (fontMemory font).byteAt a = if h : a < fontSize then font[a] else 0#8 := by
  have hl : font.toList.length = fontSize := by simp
  obtain ⟨hw, hb⟩ := placeBytes_spec fontBase font.toList Memory.nil_wf (by rw [hl]; decide)
  refine ⟨hw, fun a => (hb a).trans ?_⟩
  rw [hl, Nat.zero_add]
  by_cases h' : a < fontSize
  · rw [if_pos ⟨Nat.zero_le a, h'⟩, dif_pos h', Nat.sub_zero, List.getD_eq_getElem _ _ (by rw [hl]; exact h')]
    exact Vector.getElem_toList _
  · rw [if_neg fun h => h' h.2, dif_neg h']
    exact Memory.resetByte_of_le (Nat.le_of_not_lt h')

/-- The default font lists nothing. -/
theorem fontMemory_standardFont : fontMemory standardFont = [] := by decide

end Sys2Proof.Machine
end

