-- ==== Sys2Proof/Laws/Registers.lean ====
section
/-! SUPPORT. Reading a general register after an update of the state. -/

namespace Sys2Proof.Machine

variable (s : State)

@[simp] theorem reg_setReg_same (x : Reg) (v : Byte) : (s.setReg x v).reg x = v := by
  simp [State.reg, State.setReg]

@[simp] theorem reg_setReg_ne {x k : Reg} (v : Byte) (h : k ≠ x) : (s.setReg x v).reg k = s.reg k := by
  have : x.toNat ≠ k.toNat := fun e => h (BitVec.eq_of_toNat_eq e.symm)
  simp [State.reg, State.setReg, this]

theorem reg_setReg (x : Reg) (v : Byte) (k : Reg) : (s.setReg x v).reg k = if k = x then v else s.reg k := by
  split <;> rename_i h
  · rw [h, reg_setReg_same]
  · rw [reg_setReg_ne s v h]

/-- The destination is written last: it wins over the flag (42 R170). -/
theorem reg_setFlagThenReg (flag : Byte) (x : Reg) (r : Byte) (k : Reg) :
    (setFlagThenReg s flag x r).reg k = if k = x then r else if k = VF then flag else s.reg k := by
  rw [setFlagThenReg, reg_setReg, reg_setReg]

@[simp] theorem reg_setI (v : Word) (k : Reg) : (s.setI v).reg k = s.reg k := rfl

@[simp] theorem reg_setPc (v : Word) (k : Reg) : (s.setPc v).reg k = s.reg k := rfl

@[simp] theorem reg_setDT (v : Byte) (k : Reg) : (s.setDT v).reg k = s.reg k := rfl

@[simp] theorem reg_setST (v : Byte) (k : Reg) : (s.setST v).reg k = s.reg k := rfl

@[simp] theorem reg_setMem (m : Memory) (k : Reg) : (s.setMem m).reg k = s.reg k := rfl

@[simp] theorem reg_setGrid (g : Grid) (k : Reg) : (s.setGrid g).reg k = s.reg k := rfl

@[simp] theorem reg_armWait (x : Reg) (k : Reg) : (s.armWait x).reg k = s.reg k := rfl

@[simp] theorem reg_countDraw (k : Reg) : s.countDraw.reg k = s.reg k := rfl

@[simp] theorem reg_advance (k : Reg) : (advance s).reg k = s.reg k := rfl

@[simp] theorem reg_raiseAt (a : Word) (op : Option Word) (c : FaultCause) (k : Reg) :
    (raiseAt a op c s).reg k = s.reg k := rfl

/-- Loading ascending registers from register `j` on. -/
theorem getElem_setRegsFrom (v : Vector Byte 16) (j : Nat) (bytes : List Byte) (k : Nat) (hk : k < 16) :
    (setRegsFrom v j bytes)[k] = if j ≤ k ∧ k < j + bytes.length then bytes.getD (k - j) 0#8 else v[k] := by
  induction bytes generalizing v j with
  | nil => simp [setRegsFrom]
  | cons b bs ih =>
    rw [setRegsFrom, ih]
    simp only [List.length_cons]
    rcases Nat.lt_trichotomy k j with h | h | h
    · rw [if_neg (by omega), if_neg (by omega), Vector.getElem_setIfInBounds, if_neg (by omega)]
    · subst h
      rw [if_neg (by omega), if_pos (by omega), Vector.getElem_setIfInBounds, if_pos rfl]
      simp
    · obtain ⟨d, rfl⟩ : ∃ d, k = j + 1 + d := ⟨k - (j + 1), by omega⟩
      rw [show j + 1 + d - j = d + 1 by omega, show j + 1 + d - (j + 1) = d by omega, List.getD_cons_succ,
        Vector.getElem_setIfInBounds, if_neg (show ¬ j = j + 1 + d by omega)]
      by_cases hd : d < bs.length
      · rw [if_pos (by omega), if_pos (by omega)]
      · rw [if_neg (by omega), if_neg (by omega)]

theorem reg_loadLow (bytes : List Byte) (k : Reg) :
    (s.loadLow bytes).reg k = if k.toNat < bytes.length then bytes.getD k.toNat 0#8 else s.reg k := by
  have := getElem_setRegsFrom s.V 0 bytes k.toNat k.isLt
  simpa [State.reg, State.loadLow] using this

/-- The `k`-th byte of `V[0]` to `V[x]` is `V[k]`. -/
theorem getD_regsUpTo (x : Reg) (k : Reg) (h : k.toNat ≤ x.toNat) : (regsUpTo s x).getD k.toNat 0#8 = s.reg k := by
  have hk := k.isLt
  have hx := x.isLt
  rw [regsUpTo, List.getD_eq_getElem _ _ (by simp; omega)]
  simp [State.reg]

theorem length_regsUpTo (x : Reg) : (regsUpTo s x).length = x.toNat + 1 := by
  have := x.isLt
  simp [regsUpTo]; omega

end Sys2Proof.Machine
end

