-- ==== Sys2Proof/Laws/Events.lean ====
section
/-! SUPPORT. What the host's transitions can do, and induction over a schedule. -/

namespace Sys2Proof.Machine

/-- Memory after a reset: the font parameter's bytes, and zeros (20 R68, 70 R301). -/
theorem resetMachine_mem (s : State) :
    (resetMachine s).mem.wf ∧
    ∀ a, (resetMachine s).mem.byteAt a = if h : a < fontSize then s.cfg.font[a] else 0#8 :=
  fontMemory_spec s.cfg.font

/-- The state after power-on is a fixed point of power-on: it is what a reset with all keys up leaves (70 R300). -/
theorem powerOn_reset : powerOn State.reset = State.reset := by
  have h : fontMemory State.reset.cfg.font = [] := fontMemory_standardFont
  show { State.reset with mem := fontMemory State.reset.cfg.font } = State.reset
  rw [h]; rfl

/-- A key release: only the key, or the end of an armed wait (40 R131). -/
theorem keyRelease_cases (k : Nibble) (s : State) :
    keyRelease k s = { s with keys := s.keys.set k.toNat false k.isLt } ∨
    ∃ r, s.waitKey = some r ∧ s.fault = none ∧
      keyRelease k s =
        { ({ s with keys := s.keys.set k.toNat false k.isLt } : State).setReg r (k.setWidth 8) with
          waitKey := none, paused := false } := by
  unfold keyRelease endWait
  cases s.waitKey <;> cases s.fault <;> simp

/-- A tick part: nothing, or at most the timers, the sound level and the frame flag (40 R126). -/
theorem tickPart_cases (s : State) :
    (tickPart s).1 = s ∨
    (tickPart s).1 =
      { s with
        DT := (tickPart s).1.DT, ST := (tickPart s).1.ST, soundOn := (tickPart s).1.soundOn,
        frameDirty := (tickPart s).1.frameDirty } := by
  unfold tickPart
  split
  · exact .inl rfl
  · right
    unfold reportFrame
    split <;> split <;> rfl

/-- A reflexive relation that every slot of a schedule carries back over the rest holds over the schedule. -/
theorem runSlots_induction {P : State → State → Prop} (hrefl : ∀ s, P s s) (slots : List Slot)
    (hstep : ∀ slot ∈ slots, ∀ s t u out, runSlot slot s = .next (t, out) → P t u → P s u) :
    ∀ s t out, runSlots slots s = .next (t, out) → P s t := by
  induction slots with
  | nil =>
    intro s t out h
    simp only [runSlots, Host.Outcome.next.injEq, Prod.mk.injEq] at h
    exact h.1 ▸ hrefl s
  | cons slot slots ih =>
    intro s t out h
    unfold runSlots at h
    split at h
    · cases h
    · cases h
    · rename_i mid emitted e
      split at h
      · cases h
      · cases h
      · rename_i last more e'
        simp only [Host.Outcome.next.injEq, Prod.mk.injEq] at h
        exact hstep slot (by simp) s mid _ _ e (ih (fun q hq => hstep q (by simp [hq])) _ _ _ (h.1 ▸ e'))

end Sys2Proof.Machine
end

