-- ==== Sys2Proof/Laws/Stack.lean ====
section
/-! SUPPORT. What push and pop do (spec/10_state.md R26, R27). -/

namespace Sys2Proof.Machine

/-- A push onto a stack that is not full: everything it changes. -/
theorem push_cases (s : State) (a : Word) :
    (s.sp.val = 16 ∧ push s a = none) ∨
    (∃ h : s.sp.val < 16, push s a = some { s with stack := s.stack.set s.sp.val a h, sp := ⟨s.sp.val + 1, by omega⟩ }) := by
  have := s.sp.isLt
  by_cases h : s.sp.val < 16
  · exact .inr ⟨h, dif_pos h⟩
  · exact .inl ⟨by omega, dif_neg h⟩

/-- A pop from a stack that is not empty: the newest entry, and everything it changes. -/
theorem pop_cases (s : State) :
    (s.sp.val = 0 ∧ pop s = none) ∨
    (∃ (h : s.sp.val - 1 < 16) (h' : s.sp.val - 1 < 17), s.sp.val ≠ 0 ∧
      pop s = some (s.stack[s.sp.val - 1], { s with sp := ⟨s.sp.val - 1, h'⟩ })) := by
  have := s.sp.isLt
  by_cases h : s.sp.val = 0
  · exact .inl ⟨h, dif_pos h⟩
  · exact .inr ⟨by omega, by omega, h, dif_neg h⟩

end Sys2Proof.Machine
end

