-- ==== Sys2Proof/Laws/Step.lean ====
section
/-! SUPPORT. Everything a step can do (spec/40_execution_cycle.md R122). -/

namespace Sys2Proof.Machine

/-- `Running`, spelled out (10 R37). -/
theorem runState_running {s : State} :
    s.runState = .running ↔ s.fault = none ∧ s.waitKey = none ∧ s.paused = false := by
  unfold State.runState
  rcases s.fault with _ | f <;> rcases s.waitKey with _ | w <;> cases s.paused <;> simp

/-- What the next action can be, with its guards. -/
theorem nextAction_cases (s : State) :
    (s.runState ≠ .running ∧ nextAction s = .idle) ∨
    (s.runState = .running ∧ memSize ≤ s.pc.toNat + 1 ∧
      nextAction s = .raise none (.outOfBoundsAccess (max s.pc.toNat memSize) memSize .read)) ∨
    (s.runState = .running ∧ s.pc.toNat + 1 < memSize ∧ decode s.opcode = none ∧
      nextAction s = .raise (some s.opcode) .unknownOpcode) ∨
    (∃ i, s.runState = .running ∧ s.pc.toNat + 1 < memSize ∧ decode s.opcode = some i ∧ nextAction s = .run i) := by
  unfold nextAction
  cases hr : s.runState
  case running =>
    rcases fetch16_cases s.mem s.pc.toNat with ⟨hb, hf⟩ | ⟨hb, hf⟩
    · refine .inr (.inr ?_)
      cases hd : decode s.opcode with
      | none =>
        refine .inl ⟨rfl, hb, rfl, ?_⟩
        rw [hf]
        show (match decode s.opcode with | none => _ | some i => _) = _
        rw [hd]
        rfl
      | some i =>
        refine .inr ⟨i, rfl, hb, rfl, ?_⟩
        rw [hf]
        show (match decode s.opcode with | none => _ | some i => _) = _
        rw [hd]
    · exact .inr (.inl ⟨rfl, hb, by rw [hf]⟩)
  all_goals exact .inl ⟨by simp, rfl⟩

/-- What a step can be, with its guards. -/
theorem step_cases (s : State) :
    (s.runState ≠ .running ∧ step s = .next s) ∨
    (s.runState = .running ∧ memSize ≤ s.pc.toNat + 1 ∧
      step s = .next (raiseAt s.pc none (.outOfBoundsAccess (max s.pc.toNat memSize) memSize .read) s)) ∨
    (s.runState = .running ∧ s.pc.toNat + 1 < memSize ∧ decode s.opcode = none ∧
      step s = .next (raiseAt s.pc (some s.opcode) .unknownOpcode s)) ∨
    (∃ i, s.runState = .running ∧ s.pc.toNat + 1 < memSize ∧ decode s.opcode = some i ∧
      step s = exec i (advance s)) := by
  unfold step
  rcases nextAction_cases s with ⟨h, e⟩ | ⟨h, hb, e⟩ | ⟨h, hb, hd, e⟩ | ⟨i, h, hb, hd, e⟩ <;> rw [e]
  · exact .inl ⟨h, rfl⟩
  · exact .inr (.inl ⟨h, hb, rfl⟩)
  · exact .inr (.inr (.inl ⟨h, hb, hd, rfl⟩))
  · exact .inr (.inr (.inr ⟨i, h, hb, hd, rfl⟩))

end Sys2Proof.Machine
end

