-- ==== Sys2Proof/Laws/Exec.lean ====
section
/-! SUPPORT. The meanings that can raise, by what their shared operation answers, and what every meaning does to the
latch. -/

namespace Sys2Proof.Machine

variable {s : State}

theorem exec_call (nnn : Addr12) :
    exec (.call nnn) s =
      match push s s.pc with
      | some s' => .next (s'.setPc (zext16 nnn))
      | none => raise (.call nnn) (.stackOverflow stackDepth) s := rfl

theorem exec_ret :
    exec .ret s =
      match pop s with
      | some (a, s') => .next (s'.setPc a)
      | none => raise .ret .stackUnderflow s := rfl

theorem exec_ldBVx_ok {x : Reg} {m : Memory} (e : writeBytes s.mem (effectiveAddr s 0) (bcdDigits (s.reg x)) = .ok m) :
    exec (.ldBVx x) s = .next (s.setMem m) := by
  show execLdBVx x s = _
  rw [execLdBVx, e]

theorem exec_ldBVx_error {x : Reg} {bad : Nat}
    (e : writeBytes s.mem (effectiveAddr s 0) (bcdDigits (s.reg x)) = .error bad) :
    exec (.ldBVx x) s = raise (.ldBVx x) (.outOfBoundsAccess bad memSize .write) s := by
  show execLdBVx x s = _
  rw [execLdBVx, e]; rfl

theorem exec_storeRegs_ok {x : Reg} {m : Memory} (e : writeBytes s.mem (effectiveAddr s 0) (regsUpTo s x) = .ok m) :
    exec (.storeRegs x) s = .next ((s.setMem m).setI (indexAfter s.cfg.indexMode s.I x)) := by
  show execStoreRegs x s = _
  rw [execStoreRegs, e]

theorem exec_storeRegs_error {x : Reg} {bad : Nat}
    (e : writeBytes s.mem (effectiveAddr s 0) (regsUpTo s x) = .error bad) :
    exec (.storeRegs x) s = raise (.storeRegs x) (.outOfBoundsAccess bad memSize .write) s := by
  show execStoreRegs x s = _
  rw [execStoreRegs, e]; rfl

theorem exec_loadRegs_ok {x : Reg} {bs : List Byte} (e : readBytes s.mem (effectiveAddr s 0) (x.toNat + 1) = .ok bs) :
    exec (.loadRegs x) s = .next ((s.loadLow bs).setI (indexAfter s.cfg.indexMode s.I x)) := by
  show execLoadRegs x s = _
  rw [execLoadRegs, e]

theorem exec_loadRegs_error {x : Reg} {bad : Nat}
    (e : readBytes s.mem (effectiveAddr s 0) (x.toNat + 1) = .error bad) :
    exec (.loadRegs x) s = raise (.loadRegs x) (.outOfBoundsAccess bad memSize .read) s := by
  show execLoadRegs x s = _
  rw [execLoadRegs, e]; rfl

theorem exec_drw_ok {x y : Reg} {n : Nibble} {rows : List Byte}
    (e : readBytes s.mem (effectiveAddr s 0) n.toNat = .ok rows) :
    exec (.drw x y n) s =
      .next ((s.setReg VF (collisionFlag (drawSprite rows (s.reg x).toNat (s.reg y).toNat s.px).2)).setGrid
        (drawSprite rows (s.reg x).toNat (s.reg y).toNat s.px).1) := by
  show execDrw x y n s = _
  rw [execDrw, e]

theorem exec_drw_error {x y : Reg} {n : Nibble} {bad : Nat}
    (e : readBytes s.mem (effectiveAddr s 0) n.toNat = .error bad) :
    exec (.drw x y n) s = raise (.drw x y n) (.outOfBoundsAccess bad memSize .read) s := by
  show execDrw x y n s = _
  rw [execDrw, e]; rfl

/-- From no recorded fault, an instruction that answers a next state either leaves the latch empty or is one raise. -/
theorem exec_clean_or_raise {i : Instr} {t : State} (hf : s.fault = none) (h : exec i s = .next t) :
    t.fault = none ∨ ∃ c, exec i s = raise i c s := by
  cases i
  case ret =>
    rw [exec_ret] at h ⊢
    rcases pop_cases s with ⟨_, e⟩ | ⟨_, _, _, e⟩ <;> rw [e] at h ⊢
    · exact .inr ⟨_, rfl⟩
    · cases h; exact .inl hf
  case call =>
    rw [exec_call] at h ⊢
    rcases push_cases s s.pc with ⟨_, e⟩ | ⟨_, e⟩ <;> rw [e] at h ⊢
    · exact .inr ⟨_, rfl⟩
    · cases h; exact .inl hf
  case drw x y n =>
    cases e : readBytes s.mem (effectiveAddr s 0) n.toNat with
    | ok rows => rw [exec_drw_ok e] at h; cases h; exact .inl hf
    | error bad => exact .inr ⟨_, exec_drw_error e⟩
  case ldBVx x =>
    cases e : writeBytes s.mem (effectiveAddr s 0) (bcdDigits (s.reg x)) with
    | ok m => rw [exec_ldBVx_ok e] at h; cases h; exact .inl hf
    | error bad => exact .inr ⟨_, exec_ldBVx_error e⟩
  case storeRegs x =>
    cases e : writeBytes s.mem (effectiveAddr s 0) (regsUpTo s x) with
    | ok m => rw [exec_storeRegs_ok e] at h; cases h; exact .inl hf
    | error bad => exact .inr ⟨_, exec_storeRegs_error e⟩
  case loadRegs x =>
    cases e : readBytes s.mem (effectiveAddr s 0) (x.toNat + 1) with
    | ok bs => rw [exec_loadRegs_ok e] at h; cases h; exact .inl hf
    | error bad => exact .inr ⟨_, exec_loadRegs_error e⟩
  all_goals
    obtain rfl := Host.Outcome.next.inj (h : Host.Outcome.next _ = _)
    first
      | exact .inl hf
      | (split <;> exact .inl hf)

/-- The address a raising meaning records is the one its instruction was fetched from. -/
theorem advance_pc_sub_two (s : State) : (advance s).pc - 2#16 = s.pc := by
  apply BitVec.eq_of_toNat_eq
  have := s.pc.isLt
  simp [advance, trunc16]
  omega

end Sys2Proof.Machine
end

