-- ==== Sys2Proof/Laws/PerInstr.lean ====
section
/-! SUPPORT. Facts about every instruction as syntax, one lemma per constructor. Family `Fits`: the instruction written
with plain numbers has its format's arity and widths (spec/30_encoding.md R91, R93). -/

namespace Sys2Proof.Laws.Fits

/-- The written form of the instruction is well formed. -/
def Statement (i : Instr) : Prop := i.written.wf = true

theorem fit1 {k : OperandKind} {w : Nat} (v : BitVec w) (hw : w = k.width) : argumentsFit [k] [v.toNat] = true := by
  subst hw
  simp [argumentsFit, v.isLt]

theorem fit2 {k l : OperandKind} {a b : Nat} (u : BitVec a) (v : BitVec b) (ha : a = k.width) (hb : b = l.width) :
    argumentsFit [k, l] [u.toNat, v.toNat] = true := by
  subst ha hb
  simp [argumentsFit, u.isLt, v.isLt]

theorem fit3 {k l m : OperandKind} {a b c : Nat} (u : BitVec a) (v : BitVec b) (w : BitVec c) (ha : a = k.width)
    (hb : b = l.width) (hc : c = m.width) : argumentsFit [k, l, m] [u.toNat, v.toNat, w.toNat] = true := by
  subst ha hb hc
  simp [argumentsFit, u.isLt, v.isLt, w.isLt]

theorem cls : Statement .cls := rfl

theorem ret : Statement .ret := rfl

theorem jp (nnn : Addr12) : Statement (.jp nnn) := fit1 nnn rfl

theorem call (nnn : Addr12) : Statement (.call nnn) := fit1 nnn rfl

theorem ldI (nnn : Addr12) : Statement (.ldI nnn) := fit1 nnn rfl

theorem jpV0 (nnn : Addr12) : Statement (.jpV0 nnn) := fit1 nnn rfl

theorem seByte (x : Reg) (kk : Byte) : Statement (.seByte x kk) := fit2 x kk rfl rfl

theorem sneByte (x : Reg) (kk : Byte) : Statement (.sneByte x kk) := fit2 x kk rfl rfl

theorem ldByte (x : Reg) (kk : Byte) : Statement (.ldByte x kk) := fit2 x kk rfl rfl

theorem addByte (x : Reg) (kk : Byte) : Statement (.addByte x kk) := fit2 x kk rfl rfl

theorem rnd (x : Reg) (kk : Byte) : Statement (.rnd x kk) := fit2 x kk rfl rfl

theorem seReg (x y : Reg) : Statement (.seReg x y) := fit2 x y rfl rfl

theorem ldReg (x y : Reg) : Statement (.ldReg x y) := fit2 x y rfl rfl

theorem orReg (x y : Reg) : Statement (.orReg x y) := fit2 x y rfl rfl

theorem andReg (x y : Reg) : Statement (.andReg x y) := fit2 x y rfl rfl

theorem xorReg (x y : Reg) : Statement (.xorReg x y) := fit2 x y rfl rfl

theorem addReg (x y : Reg) : Statement (.addReg x y) := fit2 x y rfl rfl

theorem subReg (x y : Reg) : Statement (.subReg x y) := fit2 x y rfl rfl

theorem shr (x y : Reg) : Statement (.shr x y) := fit2 x y rfl rfl

theorem subnReg (x y : Reg) : Statement (.subnReg x y) := fit2 x y rfl rfl

theorem shl (x y : Reg) : Statement (.shl x y) := fit2 x y rfl rfl

theorem sneReg (x y : Reg) : Statement (.sneReg x y) := fit2 x y rfl rfl

theorem drw (x y : Reg) (n : Nibble) : Statement (.drw x y n) := fit3 x y n rfl rfl rfl

theorem skp (x : Reg) : Statement (.skp x) := fit1 x rfl

theorem sknp (x : Reg) : Statement (.sknp x) := fit1 x rfl

theorem ldVxDT (x : Reg) : Statement (.ldVxDT x) := fit1 x rfl

theorem ldVxK (x : Reg) : Statement (.ldVxK x) := fit1 x rfl

theorem ldDTVx (x : Reg) : Statement (.ldDTVx x) := fit1 x rfl

theorem ldSTVx (x : Reg) : Statement (.ldSTVx x) := fit1 x rfl

theorem addIVx (x : Reg) : Statement (.addIVx x) := fit1 x rfl

theorem ldFVx (x : Reg) : Statement (.ldFVx x) := fit1 x rfl

theorem ldBVx (x : Reg) : Statement (.ldBVx x) := fit1 x rfl

theorem storeRegs (x : Reg) : Statement (.storeRegs x) := fit1 x rfl

theorem loadRegs (x : Reg) : Statement (.loadRegs x) := fit1 x rfl

end Sys2Proof.Laws.Fits
end

