-- ==== Sys2Proof/Laws/Run.lean ====
section
/-! SUPPORT. Runs of several steps: a run taken apart, the runs of an idle machine, and those of a finished one. -/

namespace Sys2Proof.Machine

variable {M : Host.Core}

/-- A run whose first step answers a next state. -/
theorem run_succ_of_next {n : Nat} {s t : M.State} (h : M.step s = .next t) : M.run (n + 1) s = M.run n t := by
  rw [Host.Core.run, h]

/-- A run of `m + n` steps that gets through its first `m`. -/
theorem run_add_of_next {m n : Nat} {s t : M.State} (h : M.run m s = .next t) : M.run (m + n) s = M.run n t := by
  induction m generalizing s with
  | zero =>
    injection h with h
    rw [Nat.zero_add, h]
  | succ m ih =>
    rw [Nat.succ_add]
    unfold Host.Core.run at h
    split at h <;> rename_i hs
    · rw [run_succ_of_next hs]; exact ih h
    · cases h
    · cases h

/-- The first part of a run that answers a next state answers one. -/
theorem run_prefix {m n : Nat} {s t : M.State} (h : M.run (m + n) s = .next t) : ∃ u, M.run m s = .next u := by
  induction m generalizing s with
  | zero => exact ⟨s, rfl⟩
  | succ m ih =>
    rw [Nat.succ_add] at h
    unfold Host.Core.run at h
    split at h <;> rename_i hs
    · rw [run_succ_of_next hs]; exact ih h
    · cases h
    · cases h

/-- A state whose step changes nothing stays for ever. -/
theorem run_of_step_self {n : Nat} {s : M.State} (h : M.step s = .next s) : M.run n s = .next s := by
  induction n with
  | zero => rfl
  | succ n ih => rw [run_succ_of_next h, ih]

/-- A machine that is not `Running` does not step (40 R121). -/
theorem step_of_not_running {s : State} (h : s.runState ≠ .running) : step s = .next s := by
  rcases step_cases s with ⟨_, e⟩ | ⟨h', _⟩ | ⟨h', _⟩ | ⟨_, h', _⟩
  · exact e
  all_goals exact absurd h' h

/-- A finished machine jumps to where it is (40 R125, 41 R151). -/
theorem step_of_finished {s : State} (h : s.finished) : step s = .next s := by
  obtain ⟨hr, hp, hd⟩ := h
  rcases step_cases s with ⟨h, _⟩ | ⟨_, h, _⟩ | ⟨_, _, h, _⟩ | ⟨i, _, _, h, e⟩
  · exact absurd hr h
  · unfold memSize at h; omega
  · rw [h] at hd; cases hd
  · rw [h] at hd; cases hd
    have hz : zext16 (s.pc.setWidth 12) = s.pc := by
      apply BitVec.eq_of_toNat_eq
      simp only [zext16, BitVec.toNat_setWidth]; omega
    rw [e]
    show Host.Outcome.next { s with pc := zext16 (s.pc.setWidth 12) } = _
    rw [hz]

end Sys2Proof.Machine
end

