-- ==== Sys2Proof/Machine/Assembly.lean ====
section
/-! DEFINITION. The assembler forms of the instructions (spec/30_encoding.md R94, R101): "a mnemonic followed by zero to
three operands separated by commas". Numbers are written in hexadecimal after `0x`, at their field's width in digits. The
form is notation only: no transition reads it. -/

namespace Sys2Proof.Machine

/-- A hexadecimal digit (00 R7). -/
def hexDigit (d : Nibble) : Char := ['0', '1', '2', '3', '4', '5', '6', '7', '8', '9', 'A', 'B', 'C', 'D', 'E', 'F'].getD d.toNat '0'

/-- The name of a register: `V` and one hexadecimal digit (R101). -/
def regText (x : Reg) : List Char := ['V', hexDigit x]

/-- The lowest `digits` hexadecimal digits of a number, after `0x`. -/
def numberText (digits v : Nat) : List Char :=
  '0' :: 'x' :: ((List.range digits).reverse.map fun k => hexDigit (BitVec.ofNat 4 (v / 16 ^ k)))

/-- A mnemonic and its operands, separated by commas (R101). -/
def asmText (mnemonic : String) : List (List Char) → List Char
  | [] => mnemonic.toList
  | op :: ops => mnemonic.toList ++ ' ' :: (ops.foldl (fun acc o => acc ++ ',' :: ' ' :: o) op)

/-- The assembler form of an instruction, the column of R94 with the operands filled in. -/
def asmForm : Instr → List Char
  | .cls => asmText "CLS" []
  | .ret => asmText "RET" []
  | .jp nnn => asmText "JP" [numberText 3 nnn.toNat]
  | .call nnn => asmText "CALL" [numberText 3 nnn.toNat]
  | .seByte x kk => asmText "SE" [regText x, numberText 2 kk.toNat]
  | .sneByte x kk => asmText "SNE" [regText x, numberText 2 kk.toNat]
  | .seReg x y => asmText "SE" [regText x, regText y]
  | .ldByte x kk => asmText "LD" [regText x, numberText 2 kk.toNat]
  | .addByte x kk => asmText "ADD" [regText x, numberText 2 kk.toNat]
  | .ldReg x y => asmText "LD" [regText x, regText y]
  | .orReg x y => asmText "OR" [regText x, regText y]
  | .andReg x y => asmText "AND" [regText x, regText y]
  | .xorReg x y => asmText "XOR" [regText x, regText y]
  | .addReg x y => asmText "ADD" [regText x, regText y]
  | .subReg x y => asmText "SUB" [regText x, regText y]
  | .shr x y => asmText "SHR" [regText x, regText y]
  | .subnReg x y => asmText "SUBN" [regText x, regText y]
  | .shl x y => asmText "SHL" [regText x, regText y]
  | .sneReg x y => asmText "SNE" [regText x, regText y]
  | .ldI nnn => asmText "LD" [['I'], numberText 3 nnn.toNat]
  | .jpV0 nnn => asmText "JP" [regText 0#4, numberText 3 nnn.toNat]
  | .rnd x kk => asmText "RND" [regText x, numberText 2 kk.toNat]
  | .drw x y n => asmText "DRW" [regText x, regText y, numberText 1 n.toNat]
  | .skp x => asmText "SKP" [regText x]
  | .sknp x => asmText "SKNP" [regText x]
  | .ldVxDT x => asmText "LD" [regText x, ['D', 'T']]
  | .ldVxK x => asmText "LD" [regText x, ['K']]
  | .ldDTVx x => asmText "LD" [['D', 'T'], regText x]
  | .ldSTVx x => asmText "LD" [['S', 'T'], regText x]
  | .addIVx x => asmText "ADD" [['I'], regText x]
  | .ldFVx x => asmText "LD" [['F'], regText x]
  | .ldBVx x => asmText "LD" [['B'], regText x]
  | .storeRegs x => asmText "LD" [['[', 'I', ']'], regText x]
  | .loadRegs x => asmText "LD" [regText x, ['[', 'I', ']']]

end Sys2Proof.Machine
end

