-- ==== Sys2Proof/Tests/Slice0.lean ====
section
/-! SUPPORT. The model's own tests: what WellFormed refuses, a word of every constructor, one step per instruction on
the vectors of spec/95_test_vectors.md (named T and S there), and for every statement a state that meets its premises. -/

namespace Sys2Proof.Machine.Tests

/-! ### WellFormed -/

theorem test_rom_longest_fits : romFits (List.replicate 3584 0#8) = true := by
  rw [romFits, List.length_replicate]; decide
theorem test_rom_too_long_refused : romFits (List.replicate 3585 0#8) = false := by
  rw [romFits, List.length_replicate]; decide
theorem test_written_drw_wf : Written.wf ⟨.xyn, [15, 0, 15]⟩ = true := by decide
theorem test_written_missing_refused : Written.wf ⟨.xy, [1]⟩ = false := by decide
theorem test_written_extra_refused : Written.wf ⟨.z, [0]⟩ = false := by decide
theorem test_written_wide_nnn_refused : Written.wf ⟨.a, [0x1000]⟩ = false := by decide
theorem test_written_wide_kk_refused : Written.wf ⟨.xb, [0, 0x100]⟩ = false := by decide
theorem test_written_wide_x_refused : Written.wf ⟨.x, [16]⟩ = false := by decide
theorem test_written_wide_y_refused : Written.wf ⟨.xy, [0, 16]⟩ = false := by decide
theorem test_written_wide_n_refused : Written.wf ⟨.xyn, [0, 0, 16]⟩ = false := by decide

/-! ### Decoding: a word of every row of 30 R94, its nibbles written out from the pattern column -/

theorem test_decode_words_low :
    [0x00E0#16, 0x00EE#16, 0x1ABC#16, 0x2ABC#16, 0x3A42#16, 0x4A42#16, 0x5AB0#16, 0x6FAB#16, 0x7301#16].map decode =
      [some .cls, some .ret, some (.jp 0xABC#12), some (.call 0xABC#12), some (.seByte 10#4 0x42#8),
       some (.sneByte 10#4 0x42#8), some (.seReg 10#4 11#4), some (.ldByte 15#4 0xAB#8), some (.addByte 3#4 1#8)] := by
  decide
theorem test_decode_words_alu :
    [0x8AB0#16, 0x8AB1#16, 0x8AB2#16, 0x8AB3#16, 0x8AB4#16, 0x8AB5#16, 0x8AB6#16, 0x8AB7#16, 0x8ABE#16].map decode =
      [some (.ldReg 10#4 11#4), some (.orReg 10#4 11#4), some (.andReg 10#4 11#4), some (.xorReg 10#4 11#4),
       some (.addReg 10#4 11#4), some (.subReg 10#4 11#4), some (.shr 10#4 11#4), some (.subnReg 10#4 11#4),
       some (.shl 10#4 11#4)] := by decide
theorem test_decode_words_mid :
    [0x9AB0#16, 0xA300#16, 0xB123#16, 0xC10F#16, 0xD125#16, 0xE19E#16, 0xE1A1#16].map decode =
      [some (.sneReg 10#4 11#4), some (.ldI 0x300#12), some (.jpV0 0x123#12), some (.rnd 1#4 0x0F#8),
       some (.drw 1#4 2#4 5#4), some (.skp 1#4), some (.sknp 1#4)] := by decide
theorem test_decode_words_high :
    [0xF107#16, 0xF10A#16, 0xF115#16, 0xF118#16, 0xF11E#16, 0xF129#16, 0xF133#16, 0xF355#16, 0xFF65#16].map decode =
      [some (.ldVxDT 1#4), some (.ldVxK 1#4), some (.ldDTVx 1#4), some (.ldSTVx 1#4), some (.addIVx 1#4),
       some (.ldFVx 1#4), some (.ldBVx 1#4), some (.storeRegs 3#4), some (.loadRegs 15#4)] := by decide
/-- T140 to T146. -/
theorem test_decode_illegal :
    [0x0000#16, 0x00E1#16, 0x00EF#16, 0x0123#16, 0x0FFF#16, 0x5AB1#16, 0x5ABF#16, 0x8AB8#16, 0x8ABD#16, 0x8ABF#16,
     0x9AB1#16, 0xE09F#16, 0xE0A0#16, 0xF000#16, 0xF01F#16, 0xF030#16, 0xF075#16, 0xF085#16, 0xF0FF#16].all
      (fun op => decode op == none) = true := by decide
/-- S7's program bytes, read as a byte sequence. -/
theorem test_decode_bytes_rest :
    (decodeBytes [0x60#8, 0x05#8, 0x70#8, 0x03#8]).toOption = some (.ldByte 0#4 5#8, [0x70#8, 0x03#8]) := by decide
theorem test_decode_bytes_truncated : (decodeBytes [0x60#8]).toOption = none := by decide
/-- The assembler forms of 30 R94 and R101, on the words of T151 and T1. -/
theorem test_asm_forms :
    asmForm (.drw 1#4 2#4 5#4) = "DRW V1, V2, 0x5".toList ∧ asmForm (.storeRegs 15#4) = "LD [I], VF".toList ∧
    asmForm (.jpV0 0x123#12) = "JP V0, 0x123".toList ∧ asmForm .cls = "CLS".toList := by decide
theorem test_decode_table_word : decodeTableWord 16 0xD125 = some (.drw 1#4 2#4 5#4) := by decide

/-! ### One step per instruction -/

/-- The state after `LoadROM` of nothing, with the vectors' configuration (95, conventions). -/
def ready : State := { State.reset with paused := false, cfg := ⟨.shiftVy, .unchanged, false, 0, standardFont⟩ }

/-- The same with other quirk modes. -/
def modes (sm : ShiftMode) (im : IndexMode) (s : State) : State := { s with cfg := ⟨sm, im, false, 0, standardFont⟩ }

/-- The state after one step with a word at `pc`. -/
def ran (s : State) (w : Nat) : State :=
  match step (s.withFetchWord 16 w) with
  | .next t => t
  | .fault _ => s
  | .refused _ => s

/-- Two registers set. -/
def two (x : Reg) (v : Byte) (y : Reg) (w : Byte) : State := (ready.setReg x v).setReg y w

/-- The condition of a recorded fault with its address and opcode. -/
def recorded (s : State) : Option (FaultCause × Word × Option Word) := s.fault.map fun r => (r.cause, r.addr, r.op)

theorem test_jp : (ran ready 0x1ABC).pc = 0xABC#16 := by decide
theorem test_call_pushes_advanced_pc :
    let t := ran ready 0x2ABC
    t.pc = 0xABC#16 ∧ t.sp = 1 ∧ t.stack[0] = 0x0202#16 := by decide
/-- T5. -/
theorem test_call_full_raises :
    let t := ran { ready with sp := 16 } 0x2ABC
    recorded t = some (.stackOverflow 16, 0x200#16, some 0x2ABC#16) ∧ t.pc = 0x200#16 ∧ t.sp = 16 := by decide
/-- T6. -/
theorem test_ret :
    let t := ran { ready with sp := 2, stack := (ready.stack.set 0 0x456#16).set 1 0xABC#16 } 0x00EE
    t.pc = 0xABC#16 ∧ t.sp = 1 := by decide
/-- T7. -/
theorem test_ret_empty_raises :
    let t := ran ready 0x00EE
    recorded t = some (.stackUnderflow, 0x200#16, some 0x00EE#16) ∧ t.pc = 0x200#16 := by decide
/-- T9. -/
theorem test_jp_v0_not_masked : (ran (ready.setReg 0#4 0xFF#8) 0xBFFF).pc = 0x10FE#16 := by decide
/-- T10 to T13. -/
theorem test_se_byte : (ran (ready.setReg 10#4 0x42#8) 0x3A42).pc = 0x204#16 ∧ (ran ready 0x3A42).pc = 0x202#16 := by decide
theorem test_sne_byte : (ran (ready.setReg 10#4 0x42#8) 0x4A42).pc = 0x202#16 ∧ (ran ready 0x4A42).pc = 0x204#16 := by decide
/-- T14, T15, T17, T18. -/
theorem test_se_reg :
    (ran (two 10#4 9#8 11#4 9#8) 0x5AB0).pc = 0x204#16 ∧ (ran (two 10#4 9#8 11#4 8#8) 0x5AB0).pc = 0x202#16 := by decide
theorem test_sne_reg :
    (ran (two 10#4 9#8 11#4 8#8) 0x9AB0).pc = 0x204#16 ∧ (ran (two 10#4 9#8 11#4 9#8) 0x9AB0).pc = 0x202#16 := by decide
/-- The key 15 held down, symbol `v` in V1. -/
def held (v : Byte) : State := keyPress 15#4 (ready.setReg 1#4 v)
/-- T19, T21. -/
theorem test_skp : (ran (held 0x0F#8) 0xE19E).pc = 0x204#16 ∧ (ran (held 0x1F#8) 0xE19E).pc = 0x202#16 := by decide
/-- T22, T24. -/
theorem test_sknp : (ran (held 0x0F#8) 0xE1A1).pc = 0x202#16 ∧ (ran (held 0x1F#8) 0xE1A1).pc = 0x204#16 := by decide
/-- T30. -/
theorem test_ld_byte : (ran ready 0x6FAB).reg VF = 0xAB#8 := by decide
/-- T31. -/
theorem test_add_byte_no_flag :
    let t := ran (two 3#4 0xFF#8 VF 0x07#8) 0x7301
    t.reg 3#4 = 0#8 ∧ t.reg VF = 0x07#8 := by decide
/-- T33. -/
theorem test_ld_reg_into_x : (ran (ready.setReg 11#4 0x5A#8) 0x8AB0).reg 10#4 = 0x5A#8 := by decide
/-- T34 to T36. -/
theorem test_or :
    let t := ran ((two 10#4 0x0F#8 11#4 0xF0#8).setReg VF 0x55#8) 0x8AB1
    t.reg 10#4 = 0xFF#8 ∧ t.reg VF = 0x55#8 := by decide
theorem test_and :
    let t := ran ((two 10#4 0x0F#8 11#4 0xFC#8).setReg VF 0x55#8) 0x8AB2
    t.reg 10#4 = 0x0C#8 ∧ t.reg VF = 0x55#8 := by decide
theorem test_xor :
    let t := ran ((two 10#4 0xFF#8 11#4 0x0F#8).setReg VF 0x55#8) 0x8AB3
    t.reg 10#4 = 0xF0#8 ∧ t.reg VF = 0x55#8 := by decide
/-- T38, T39. -/
theorem test_add_carry :
    (ran ((two 10#4 0xFF#8 11#4 0x00#8).setReg VF 1#8) 0x8AB4).reg VF = 0#8 ∧
    (ran (two 10#4 0xFF#8 11#4 0x01#8) 0x8AB4).reg VF = 1#8 := by decide
/-- T42, T43. -/
theorem test_add_into_vf :
    (ran (two VF 0x80#8 10#4 0x90#8) 0x8FA4).reg VF = 0x10#8 ∧ (ran (two VF 0x01#8 10#4 0xFF#8) 0x8AF4).reg 10#4 = 0#8 := by
  decide
/-- T45, T46. -/
theorem test_sub_borrow :
    (ran (two 10#4 0x10#8 11#4 0x10#8) 0x8AB5).reg VF = 1#8 ∧
    (let t := ran (two 10#4 0x00#8 11#4 0x01#8) 0x8AB5; t.reg 10#4 = 0xFF#8 ∧ t.reg VF = 0#8) := by decide
/-- T49. -/
theorem test_sub_into_vf : (ran (two VF 0x03#8 10#4 0x05#8) 0x8FA5).reg VF = 0xFE#8 := by decide
/-- T52, T53. -/
theorem test_subn :
    (let t := ran (two 10#4 0x01#8 11#4 0x00#8) 0x8AB7; t.reg 10#4 = 0xFF#8 ∧ t.reg VF = 0#8) ∧
    (let t := ran (two 10#4 0x01#8 11#4 0xFF#8) 0x8AB7; t.reg 10#4 = 0xFE#8 ∧ t.reg VF = 1#8) := by decide
/-- T60 (S4). -/
theorem test_shr_modes :
    (let t := ran (two 10#4 0x91#8 11#4 0x02#8) 0x8AB6; t.reg 10#4 = 0x01#8 ∧ t.reg VF = 0#8 ∧ t.reg 11#4 = 2#8) ∧
    (let t := ran (modes .shiftVxInPlace .unchanged (two 10#4 0x91#8 11#4 0x02#8)) 0x8AB6
     t.reg 10#4 = 0x48#8 ∧ t.reg VF = 1#8) := by decide
/-- T61. -/
theorem test_shl_modes :
    (let t := ran (two 10#4 0x91#8 11#4 0x02#8) 0x8ABE; t.reg 10#4 = 0x04#8 ∧ t.reg VF = 0#8) ∧
    (let t := ran (modes .shiftVxInPlace .unchanged (two 10#4 0x91#8 11#4 0x02#8)) 0x8ABE
     t.reg 10#4 = 0x22#8 ∧ t.reg VF = 1#8) := by decide
/-- T70. -/
theorem test_ld_i : (ran ready 0xAFFF).I = 0x0FFF#16 := by decide
/-- T71, T72. -/
theorem test_add_i :
    (ran ((ready.setI 0x0FFF#16).setReg 1#4 1#8) 0xF11E).I = 0x1000#16 ∧
    (ran ((ready.setI 0xFFFF#16).setReg 1#4 2#8) 0xF11E).I = 0x0001#16 := by decide
/-- T73, T74. -/
theorem test_ld_f :
    (ran (ready.setReg 1#4 0x0F#8) 0xF129).I = 0x004B#16 ∧ (ran (ready.setReg 1#4 0xFF#8) 0xF129).I = 0x04FB#16 := by decide
/-- T78. -/
theorem test_bcd_top_of_memory :
    let t := ran ((ready.setI 0x0FFD#16).setReg 1#4 0x64#8) 0xF133
    t.fault = none ∧ [0xFFD, 0xFFE, 0xFFF].map t.mem.byteAt = [1#8, 0#8, 0#8] := by decide
/-- T79. -/
theorem test_bcd_past_memory_raises :
    let t := ran ((ready.setI 0x0FFE#16).setReg 1#4 0x64#8) 0xF133
    recorded t = some (.outOfBoundsAccess 0x1000 0x1000 .write, 0x200#16, some 0xF133#16) ∧ t.mem.byteAt 0xFFE = 0#8 := by
  decide
/-- S8. -/
theorem test_store_regs_modes :
    let s := ((two 0#4 0x11#8 1#4 0x22#8).setReg 2#4 0x33#8).setReg 3#4 0x44#8 |>.setI 0x0300#16
    [0x300, 0x301, 0x302, 0x303, 0x304].map (ran s 0xF355).mem.byteAt = [0x11#8, 0x22#8, 0x33#8, 0x44#8, 0#8] ∧
    (ran s 0xF355).I = 0x0300#16 ∧ (ran (modes .shiftVy .incByX s) 0xF355).I = 0x0303#16 ∧
    (ran (modes .shiftVy .incByXPlus1 s) 0xF355).I = 0x0304#16 := by decide
/-- T84. -/
theorem test_store_regs_past_memory_raises :
    let t := ran ((modes .shiftVy .incByXPlus1 ready).setI 0x0FFD#16) 0xF355
    recorded t = some (.outOfBoundsAccess 0x1000 0x1000 .write, 0x200#16, some 0xF355#16) ∧ t.I = 0x0FFD#16 := by decide
/-- T86. -/
theorem test_load_regs_all :
    (ran ready 0xFF65).V.toList = [0xF0#8, 0x90#8, 0x90#8, 0x90#8, 0xF0#8, 0x20#8, 0x60#8, 0x20#8, 0x20#8, 0x70#8, 0xF0#8,
      0x10#8, 0xF0#8, 0x80#8, 0xF0#8, 0xF0#8] := by decide
/-- T87. -/
theorem test_load_regs_past_memory_raises :
    let t := ran (ready.setI 0x0FFF#16) 0xF165
    recorded t = some (.outOfBoundsAccess 0x1000 0x1000 .read, 0x200#16, some 0xF165#16) ∧ t.reg 0#4 = 0#8 := by decide
/-- T92, T90's mask: the bits outside `kk` are 0 whatever the draw. -/
theorem test_rnd_zero_mask :
    (ran (ready.setReg 1#4 0x55#8) 0xC100).reg 1#4 = 0#8 ∧ (ran ready 0xC100).draws = 1 := by
  refine ⟨?_, rfl⟩
  show Config.randomByte 0 &&& 0#8 = 0#8
  simp
/-- T108. -/
theorem test_cls :
    let t := ran ({ ready with px := (ready.px.setTo 1 1 true).setTo 63 31 true }.setReg VF 1#8) 0x00E0
    t.px.pixel 1 1 = false ∧ t.px.pixel 63 31 = false ∧ t.reg VF = 1#8 ∧ t.frameDirty = true := by decide
/-- T101. -/
theorem test_drw_wraps :
    let t := ran (two 0#4 62#8 1#4 31#8) 0xD012
    ([(62, 31), (63, 31), (0, 31), (1, 31), (62, 0), (1, 0)].all fun p => t.px.pixel p.1 p.2) = true ∧
    ([(2, 31), (61, 31), (63, 0), (0, 0)].all fun p => !t.px.pixel p.1 p.2) = true ∧ t.reg VF = 0#8 := by decide
/-- T104, T106. -/
theorem test_drw_collision_and_old_vf :
    (let t := ran { ready with px := ready.px.setTo 0 0 true } 0xD011
     t.px.pixel 0 0 = false ∧ t.px.pixel 3 0 = true ∧ t.reg VF = 1#8) ∧
    (let t := ran (two VF 3#8 0#4 2#8) 0xDF01; t.px.pixel 3 2 = true ∧ t.px.pixel 0 2 = false ∧ t.reg VF = 0#8) := by decide
/-- T110 to T112. -/
theorem test_ld_vx_dt : (ran { ready with DT := 0x2C#8 } 0xF107).reg 1#4 = 0x2C#8 := by decide
theorem test_ld_dt_vx : (ran (ready.setReg 1#4 0xFF#8) 0xF115).DT = 0xFF#8 := by decide
theorem test_ld_st_vx : (ran (ready.setReg 1#4 1#8) 0xF118).ST = 1#8 := by decide
/-- T113, T114. -/
theorem test_ld_vx_k :
    let t := ran ready 0xFF0A
    t.pc = 0x202#16 ∧ t.runState = .waitingForKey ∧ t.waitKey = some 15#4 ∧
    (keyRelease 9#4 t).reg VF = 9#8 ∧ (keyRelease 9#4 t).runState = .running := by decide

/-! ### The step and the events -/

/-- T134, T135, T140: the last address that fetches, the first that does not, and zeroed memory. -/
theorem test_fetch_edges :
    (ran { ready with pc := 0xFFE#16 } 0x1200).pc = 0x200#16 ∧
    recorded (ran { ready with pc := 0xFFF#16 } 0) = some (.outOfBoundsAccess 0x1000 0x1000 .read, 0xFFF#16, none) ∧
    recorded (ran ready 0) = some (.unknownOpcode, 0x200#16, some 0#16) := by decide
/-- The odd address of T136. -/
theorem test_odd_pc : (ran { ready with pc := 0x203#16 } 0x00E0).pc = 0x205#16 := by decide
/-- From reset nothing runs until a load or a resume (40 R133, T138). -/
theorem test_reset_waits : step State.reset = .next State.reset := by
  rcases step_cases State.reset with ⟨_, e⟩ | ⟨h, _⟩ | ⟨h, _⟩ | ⟨_, h, _⟩
  · exact e
  all_goals exact absurd h (by decide)
/-- R68, D4: the font is a parameter; a reset and a load install whichever the configuration holds. -/
def otherFont : State := { ready with cfg := { ready.cfg with font := Vector.replicate 80 0xA5#8 } }
theorem test_font_parameter :
    [0x000, 0x04F, 0x050].map (resetMachine otherFont).mem.byteAt = [0xA5#8, 0xA5#8, 0#8] ∧
    [0x000, 0x04F, 0x200].map (loadRom [0x12#8] otherFont).1.mem.byteAt = [0xA5#8, 0xA5#8, 0x12#8] := by decide
/-- R68, T139: the default font, whole again after a program wrote over it; glyph F stands at 0x04B. -/
theorem test_font_default :
    State.reset.mem = fontMemory State.reset.cfg.font ∧
    [0x04B, 0x04C, 0x04F].map (resetMachine { ready with mem := Memory.store [] 0x04B 0#8 }).mem.byteAt =
      [0xF0#8, 0x80#8, 0x80#8] := ⟨fontMemory_standardFont.symm, by decide⟩
/-- T116, first cycle: `JP 0x200` with DT = 2, ST = 2. -/
theorem test_tick_part_after_step :
    let t := (tickPart (ran { ready with DT := 2#8, ST := 2#8 } 0x1200)).1
    t.DT = 1#8 ∧ t.ST = 1#8 ∧ t.soundOn = true := by decide
/-- R6, D12. -/
theorem test_quirk_mapping :
    Quirk.shiftMode .legacy = .shiftVy ∧ Quirk.shiftMode .shiftOnly = .shiftVy ∧ Quirk.shiftMode .modern = .shiftVxInPlace ∧
    Quirk.indexMode .incByX .legacy = .incByX ∧ Quirk.indexMode .incByXPlus1 .legacy = .incByXPlus1 ∧
    Quirk.indexMode .incByX .shiftOnly = .unchanged ∧ Quirk.indexMode .incByX .modern = .unchanged := by decide
/-- 60 R270. -/
theorem test_fatal_codes :
    (FaultCause.outOfBoundsAccess 0x1000 0x1000 .read).code = 1 ∧ (FaultCause.stackOverflow 16).code = 2 ∧
    FaultCause.stackUnderflow.code = 3 ∧ FaultCause.unknownOpcode.code = 4 ∧
    (Notification.romTooLarge 3585 0x200 4096).code = some 5 := by decide

/-! ### Witnesses: for every statement with premises, states and operands that meet them, at the clauses' edges -/

/-- A machine in each of the three idle run states. -/
def paused : State := hostPause ready
def waiting : State := ready.armWait 3#4
def halted : State := ran ready 0

/-- A canonical memory with a listed cell. -/
def stored : Memory := Memory.store [] 0x300 0x61#8

theorem witness_run_states :
    ready.runState = .running ∧ paused.runState = .paused ∧ waiting.runState = .waitingForKey ∧ halted.runState = .halted := by
  decide

/-- LoadRomPlacesImageOrRejects: both clauses at the longest and the first too long image. -/
theorem witness_load_lengths :
    (List.replicate 3584 0#8).length ≤ 3584 ∧ 3584 < (List.replicate 3585 0#8).length := by
  rw [List.length_replicate, List.length_replicate]; decide

/-- MemoryReadAfterWrite: a canonical memory, the last address and the first beyond. -/
theorem witness_memory_edges : Memory.wf stored ∧ 4095 < 4096 ∧ 4096 ≤ 4096 := by decide

/-- EqualReadsAreEqualMemories: writing what the address reads as when unlisted gives the same memory. -/
theorem witness_equal_reads :
    Memory.wf [] ∧ Memory.wf (Memory.store stored 0x300 0#8) ∧
    ∀ a, memRead [] a = memRead (Memory.store stored 0x300 0#8) a :=
  ⟨by decide, by decide, fun _ => rfl⟩

/-- FetchIsBigEndianAndBounded: the three ranges meet at these addresses. -/
theorem witness_fetch_edges :
    fetch16 stored 0x2FF = .ok 0x0061#16 ∧ fetch16 stored 0xFFE = .ok 0#16 ∧ fetch16 stored 0xFFF = .error 0x1000 ∧
    fetch16 stored 0x1000 = .error 0x1000 := ⟨rfl, rfl, rfl, rfl⟩

/-- StoreIntoCodeIsFetchedNext: T88, and the last two bytes of memory. -/
theorem witness_store_into_code :
    Memory.wf ready.mem ∧ (0#4).toNat < (1#4).toNat ∧ (ready.setI 0x0FFE#16).I.toNat + (1#4).toNat < 4096 ∧
    ∃ t, exec (.storeRegs 1#4) (ready.setI 0x0FFE#16) = .next t := ⟨by decide, by decide, by decide, _, rfl⟩

/-- EveryDecodedWordIsItsEncoding. -/
theorem witness_decoded_word : decode 0xD125#16 = some (.drw 1#4 2#4 5#4) := by decide

/-- StepRunsDecodedInstruction, PlacedWordRunsNext: at the last address an opcode can stand at. -/
theorem witness_step_runs :
    let s := { ready with pc := 0xFFE#16 }.withFetchWord 16 0x6005
    s.runState = .running ∧ memRead s.mem s.pc.toNat = .ok 0x60#8 ∧ memRead s.mem (s.pc.toNat + 1) = .ok 0x05#8 ∧
    decode (BitVec.ofNat 16 ((0x60#8).toNat * 256 + (0x05#8).toNat)) = some (.ldByte 0#4 5#8) :=
  ⟨by decide, rfl, rfl, by decide⟩
theorem witness_placed_word :
    Memory.wf ready.mem ∧ { ready with pc := 0xFFE#16 }.pc.toNat ≤ 0xFFE ∧
    decodeTableWord 16 0x6005 = some (.ldByte 0#4 5#8) := by decide

/-- StepIdleUnlessRunning: each of the three reasons. -/
theorem witness_idle : halted.fault ≠ none ∧ waiting.waitKey ≠ none ∧ paused.paused = true := by decide

/-- FetchAndDecodeFaultsLeaveStateAsBefore: both clauses; the second at the zeroed word of reset. -/
theorem witness_fetch_and_decode_faults :
    { ready with pc := 0xFFF#16 }.runState = .running ∧ 0xFFF ≤ { ready with pc := 0xFFF#16 }.pc.toNat ∧
    fetch16 ready.mem ready.pc.toNat = .ok 0#16 ∧ decode 0#16 = none := ⟨by decide, by decide, rfl, by decide⟩

/-- StepRaisesExactlyListedConditions: each listed condition, and none of them, each side of its bound. -/
theorem witness_raised_causes :
    raisedCause { ready with pc := 0xFFF#16 } = some (.outOfBoundsAccess 0x1000 0x1000 .read) ∧
    raisedCause ready = some .unknownOpcode ∧
    raisedCause ({ ready with sp := 16 }.withFetchWord 16 0x2ABC) = some (.stackOverflow 16) ∧
    raisedCause ({ ready with sp := 15 }.withFetchWord 16 0x2ABC) = none ∧
    raisedCause (ready.withFetchWord 16 0x00EE) = some .stackUnderflow ∧
    raisedCause ((ready.setI 0xFFE#16).withFetchWord 16 0xF133) = some (.outOfBoundsAccess 0x1000 0x1000 .write) ∧
    raisedCause ((ready.setI 0xFFD#16).withFetchWord 16 0xF133) = none := by decide
theorem witness_raised_causes_transfers :
    raisedCause ((ready.setI 0xFFD#16).withFetchWord 16 0xF355) = some (.outOfBoundsAccess 0x1000 0x1000 .write) ∧
    raisedCause ((ready.setI 0xFFC#16).withFetchWord 16 0xF355) = none ∧
    raisedCause ((ready.setI 0xFFFF#16).withFetchWord 16 0xF065) = some (.outOfBoundsAccess 0xFFFF 0x1000 .read) ∧
    raisedCause ((ready.setI 0xFFF#16).withFetchWord 16 0xF065) = none ∧
    raisedCause ((ready.setI 0xFF2#16).withFetchWord 16 0xD01F) = some (.outOfBoundsAccess 0x1000 0x1000 .read) ∧
    raisedCause ((ready.setI 0xFF1#16).withFetchWord 16 0xD01F) = none ∧
    raisedCause ((ready.setI 0xFFFF#16).withFetchWord 16 0xD010) = none := by decide

/-- RaisingStepChangesOnlyLatch. -/
theorem witness_raising_step :
    step (ready.withFetchWord 16 0x00EE) = .next (ran ready 0x00EE) ∧
    (ran ready 0x00EE).fault ≠ (ready.withFetchWord 16 0x00EE).fault := ⟨rfl, by decide⟩

/-- A state with the invariant, for StepKeepsInvariant and ScheduleKeepsInvariant. -/
theorem witness_inv : ready.Inv :=
  ⟨by decide, by decide, fun _ _ h => absurd h (Nat.not_lt_zero _), by decide, by decide⟩
theorem witness_inv_step : ∃ t, step ready = .next t := ⟨_, rfl⟩
theorem witness_inv_schedule : ∃ t out, runSlots [.step, .tickPart, .event .hostPause] ready = .next (t, out) :=
  ⟨_, _, rfl⟩

/-- ShiftRightWritesLowBitThenHalf and ShiftLeftWritesHighBitThenDouble: the operand in both modes. -/
theorem witness_shift_operand :
    (2#8 = if (two 10#4 0x91#8 11#4 2#8).cfg.shiftMode = .shiftVy then (two 10#4 0x91#8 11#4 2#8).reg 11#4
      else (two 10#4 0x91#8 11#4 2#8).reg 10#4) ∧
    (let s := modes .shiftVxInPlace .unchanged (two 10#4 0x91#8 11#4 2#8)
     0x91#8 = if s.cfg.shiftMode = .shiftVy then s.reg 11#4 else s.reg 10#4) := by decide

/-- BcdStoresThreeDigits: the last address that stores and the first that raises. -/
theorem witness_bcd_edges :
    Memory.wf ready.mem ∧ 0xFFD = effectiveAddr (ready.setI 0xFFD#16) 0 ∧ 0xFFD < 0xFFE ∧
    0xFFE = effectiveAddr (ready.setI 0xFFE#16) 0 ∧ 0xFFE ≤ 0xFFE := by decide

/-- BlockStoreWritesRegistersToMemory and BlockLoadReadsRegistersFromMemory: both sides of the bound, and each mode. -/
theorem witness_transfer_edges :
    Memory.wf ready.mem ∧ 0xFF0 = effectiveAddr (ready.setI 0xFF0#16) 0 ∧ 0xFF0 + (15#4).toNat < 0x1000 ∧
    0xFF1 = effectiveAddr (ready.setI 0xFF1#16) 0 ∧ 0x1000 ≤ 0xFF1 + (15#4).toNat ∧
    ready.cfg.indexMode = .unchanged ∧ (modes .shiftVy .incByX ready).cfg.indexMode = .incByX ∧
    (modes .shiftVy .incByXPlus1 ready).cfg.indexMode = .incByXPlus1 := by decide

/-- RandomByteIsMaskedIntoRegister: a bit outside the mask. -/
theorem witness_rnd_mask : (0x0F#8).getLsbD 4 = false := by decide

/-- SetPixelTogglesOneWrappedPixel: the last column and row. -/
theorem witness_pixel_range : 63 < 64 ∧ 31 < 32 ∧ (setPixel ready.px 127 63).1.pixel 63 31 = true := by decide

/-- DrawTogglesSpriteAndReportsCollision: no row, and a sprite that ends with memory; DrawOutsideMemoryRaises: one byte
further; both kinds of pixel. -/
theorem witness_draw_edges :
    (0#4).toNat = 0 ∧ effectiveAddr (ready.setI 0xFF1#16) (15#4).toNat ≤ 0x1000 ∧ 1 ≤ (15#4).toNat ∧
    0x1000 < effectiveAddr (ready.setI 0xFF2#16) (15#4).toNat := by decide
theorem witness_sprite_pixels :
    SpriteCovers ready 62#8 31#8 1 0 31 ∧ ¬ SpriteCovers ready 62#8 31#8 1 2 31 :=
  ⟨⟨0, 2, by decide, by decide, by decide, by decide, by decide⟩, by
    rintro ⟨r, c, hr, hc, hbit, hx, -⟩
    obtain rfl : r = 0 := by omega
    obtain rfl : c = 4 := by have : (62#8).toNat = 62 := rfl; omega
    exact absurd hbit (by decide)⟩

/-- DrawingTwiceRestoresGrid. -/
theorem witness_draw_twice :
    ∃ t u, (0#4) ≠ VF ∧ (1#4) ≠ VF ∧ effectiveAddr ready (5#4).toNat ≤ 0x1000 ∧
      exec (.drw 0#4 1#4 5#4) ready = .next t ∧ exec (.drw 0#4 1#4 5#4) t = .next u :=
  ⟨_, _, by decide, by decide, by decide, rfl, rfl⟩

/-- CallPushesReturnAddress, ReturnPopsReturnAddress, PushThenPopReturnsAddress: the stack one below full, full, with one
entry, and empty. -/
theorem witness_stack_depths :
    ({ ready with sp := 15 } : State).sp.val < 16 ∧ ({ ready with sp := 16 } : State).sp.val = 16 ∧
    ({ ready with sp := 1 } : State).sp.val ≠ 0 ∧ ready.sp.val = 0 := by decide

/-- ValueSkipsAdvanceOnCondition and KeySkipsFollowPressedState: the skipped state, and the symbols either side of 15. -/
theorem witness_skipped : ∃ skipped, skipped = { ready with pc := BitVec.ofNat 16 (ready.pc.toNat + 2) } := ⟨_, rfl⟩
theorem witness_symbols : (0x0F#8).toNat < 16 ∧ 16 ≤ (0x10#8).toNat := by decide

/-- KeyWaitEndsOnReleaseOnly. -/
theorem witness_key_wait :
    ready.fault = none ∧ (ready.armWait 3#4).cfg.tickWhenPaused = false ∧ ([] : List Byte).length ≤ 3584 := by decide

/-- InstructionsWriteOnlyTheirColumns: an instruction that stores, under the mode that keeps `I`. -/
theorem witness_columns :
    ∃ t, Memory.wf ready.mem ∧ ready.fault = none ∧ exec (.storeRegs 1#4) ready = .next t ∧ t.fault = none ∧
      ready.cfg.indexMode = .unchanged := ⟨_, by decide, rfl, rfl, rfl, rfl⟩

/-- OnlyTickCountsTimersDown: a step that writes a timer, one that writes none, and an event. -/
theorem witness_timer_steps :
    (∃ t, step (ready.withFetchWord 16 0xF115) = .next t) ∧ (∃ t, step ready = .next t) ∧
    HostEvent.hostPause ≠ .reset ∧ ∀ bytes, HostEvent.hostPause ≠ .loadRom bytes :=
  ⟨⟨_, rfl⟩, ⟨_, rfl⟩, by decide, fun _ => by simp⟩

/-- TickPartSamplesSoundAndReportsFrame: the halted machine, a running one, and a paused one that may tick and that may
not. -/
theorem witness_tick_part :
    halted.runState = .halted ∧ ready.runState ≠ .halted ∧ paused.runState ≠ .halted ∧ paused.runState ≠ .running ∧
    paused.cfg.tickWhenPaused = false ∧
    { paused with cfg := ⟨.shiftVy, .unchanged, true, 0, standardFont⟩ }.cfg.tickWhenPaused = true ∧
    ∃ t out, tickPart paused = (t, out) := ⟨by decide, by decide, by decide, by decide, by decide, by decide, _, _, rfl⟩

/-- CycleOfIdleMachineIsTickPart. -/
theorem witness_idle_cycle :
    paused.runState = .paused ∧ waiting.runState = .waitingForKey ∧ halted.runState = .halted := by decide

/-- KeyEventsUpdateKeysAndEndWait: an armed wait, none, and a fault. -/
theorem witness_key_events :
    waiting.waitKey = some 3#4 ∧ waiting.fault = none ∧ ready.waitKey = none ∧ halted.fault ≠ none := by decide

/-- PauseAndResumeMoveOnlyFlag. -/
theorem witness_resume : waiting.waitKey ≠ none ∧ paused.waitKey = none := by decide

/-- HaltedUntilResetOrLoad. -/
theorem witness_halted_run :
    halted.runState = .halted ∧
    (∀ slot ∈ [Slot.step, .tickPart, .event .hostResume, .event (.keyPress 1#4)],
      slot ≠ .event .reset ∧ ∀ bytes, slot = .event (.loadRom bytes) → 3584 < bytes.length) ∧
    ∃ t out, runSlots [.step, .tickPart, .event .hostResume, .event (.keyPress 1#4)] halted = .next (t, out) :=
  ⟨by decide, by simp, _, _, rfl⟩

/-- RunStateTransitionsFollowTable: a step of each kind, a load of each kind, and events. -/
theorem witness_transition_steps :
    paused.runState ≠ .running ∧ raisedCause ready ≠ none ∧ raisedCause (ready.withFetchWord 16 0xF30A) = none ∧
    decode (ready.withFetchWord 16 0xF30A).opcode = some (.ldVxK 3#4) ∧
    decode (ready.withFetchWord 16 0x1200).opcode = some (.jp 0x200#12) := by decide
theorem witness_transitions :
    (∃ t out, runSlot .step ready = .next (t, out)) ∧ (∃ t out, runSlot .tickPart ready = .next (t, out)) ∧
    (∃ t out, runSlot (.event .hostResume) waiting = .next (t, out)) ∧
    (∃ t out, runSlot (.event (.loadRom [])) ready = .next (t, out)) := ⟨⟨_, _, rfl⟩, ⟨_, _, rfl⟩, ⟨_, _, rfl⟩, ⟨_, _, rfl⟩⟩

/-- OutsideInputsChangeOnlyFromOutside: a run without key events, and one without steps, resets and loads. -/
theorem witness_outside_inputs :
    (∀ slot ∈ [Slot.step], ∀ k, slot ≠ .event (.keyPress k) ∧ slot ≠ .event (.keyRelease k)) ∧
    (∀ slot ∈ [Slot.tickPart], slot ≠ .step ∧ slot ≠ .event .reset ∧ ∀ bytes, slot ≠ .event (.loadRom bytes)) ∧
    (∃ t out, runSlots [.step] ready = .next (t, out)) ∧ (∃ t out, runSlots [.tickPart] ready = .next (t, out)) :=
  ⟨by simp, by simp, ⟨_, _, rfl⟩, ⟨_, _, rfl⟩⟩

/-- A safe run (Safety.lean): two steps of `JP 0x200` raise nothing. -/
theorem witness_safe_run : SafeFor 2 (ready.withFetchWord 16 0x1200) := by
  intro k hk
  interval_cases k
  · exact ⟨_, rfl, rfl⟩
  · exact ⟨_, rfl, rfl⟩
  · exact ⟨_, rfl, rfl⟩

/-- FinishedMachineLoopsInPlace: a jump to itself at the first address a program has and at the last that fetches; and a
`JP V0` to its own address, which is not the model's end of a run. -/
theorem witness_finished :
    (ready.withFetchWord 16 0x1200).finished ∧ ({ ready with pc := 0xFFE#16 }.withFetchWord 16 0x1FFE).finished ∧
    ¬ (ready.withFetchWord 16 0xB200).finished ∧ (ready.withFetchWord 16 0xB200).runState = .running ∧
    ¬ halted.finished ∧ ¬ paused.finished := by decide
theorem witness_steps_to_itself : step (ready.withFetchWord 16 0xB200) = .next (ready.withFetchWord 16 0xB200) := rfl

/-- RunEndsOnceAndStays: `LD V0, 5` and then the jump to itself; the run ends after one step. -/
def shortProgram : State := (loadRom [0x60#8, 0x05#8, 0x12#8, 0x02#8] ready).1
theorem witness_run_ends : ∃ t, EndsAt 1 shortProgram t ∧ t.reg 0#4 = 5#8 :=
  ⟨_, ⟨rfl, by decide, fun k hk u hu => by
    obtain rfl : k = 0 := by omega
    injection hu with hu
    rw [← hu]
    decide⟩, by decide⟩

end Sys2Proof.Machine.Tests
end

section
/-! SUPPORT. What a raise leaves unchanged (spec/60_exceptions.md R275, R276), push and pop by the stack's depth
(spec/10_state.md R26, R27), and the depths at which CALL and RET raise (spec/41_control_flow.md R152, R153). -/

namespace Sys2Proof.Machine

variable {s : State}

/-- A meaning that is one raise differs from the state before it in `pc` and the latch only. -/
theorem raisesCause_of_exec_eq_raise {i : Instr} {c : FaultCause} (h : exec i s = raise i c s) : RaisesCause i s c := by
  have parts : PartsKept s (raiseAt (s.pc - 2#16) (some (encode i)) c s) [.pc, .latch] := by
    intro p hp
    cases p
    case pc | latch => simp at hp
    all_goals simp [Part.same]
  exact ⟨_, _, h, raiseAt_fault s _ _ _, rfl, fun k _ => reg_raiseAt s _ _ _ k, parts, fun _ => rfl⟩

/-- A push onto a full stack pushes nothing (10 R26). -/
theorem push_of_full (a : Word) (h : s.sp.val = 16) : push s a = none := by
  rcases push_cases s a with ⟨_, e⟩ | ⟨hlt, _⟩
  · exact e
  · omega

/-- A pop from an empty stack answers nothing (10 R27). -/
theorem pop_of_empty (h : s.sp.val = 0) : pop s = none := by
  rcases pop_cases s with ⟨_, e⟩ | ⟨_, _, hne, _⟩
  · exact e
  · exact absurd h hne

/-- A pop from `n + 1` entries answers entry `n`, the newest, and changes `sp` only (10 R27). -/
theorem pop_of_sp_eq_succ {n : Nat} (hn : n < 16) (h : s.sp.val = n + 1) :
    pop s = some (s.stack[n], { s with sp := ⟨n, by omega⟩ }) := by
  rcases pop_cases s with ⟨hempty, _⟩ | ⟨_, _, _, e⟩
  · omega
  · simpa [h] using e

/-- A push onto a stack that is not full stores at `sp` and counts up, and the next pop takes that entry back off. -/
theorem push_then_pop (a : Word) (h : s.sp.val < 16) :
    ∃ t, push s a = some t ∧ t.stack = s.stack.set s.sp.val a h ∧ t.sp.val = s.sp.val + 1 ∧
      pop t = some (a, { t with sp := s.sp }) := by
  rcases push_cases s a with ⟨hfull, _⟩ | ⟨_, e⟩
  · omega
  · exact ⟨_, e, rfl, rfl, (pop_of_sp_eq_succ h rfl).trans (by simp)⟩

/-- CALL with a full stack is one raise (41 R152). -/
theorem call_raisesCause_of_full (nnn : Addr12) (h : s.sp.val = 16) :
    RaisesCause (.call nnn) s (.stackOverflow 16) :=
  raisesCause_of_exec_eq_raise (by rw [exec_call, push_of_full _ h])

/-- RET with an empty stack is one raise (41 R153). -/
theorem ret_raisesCause_of_empty (h : s.sp.val = 0) : RaisesCause .ret s .stackUnderflow :=
  raisesCause_of_exec_eq_raise (by rw [exec_ret, pop_of_empty h])

end Sys2Proof.Machine
end

section
/-! SUPPORT. Family 10_state.md settled: push and pop of the call stack. -/

namespace Sys2Proof.Machine

/-- Settles O45, one clause per stack depth: full, not full, empty, not empty. -/
theorem pushThenPopReturnsAddress : Obligations.PushThenPopReturnsAddress := by
  intro s a nnn
  refine ⟨fun h => ⟨push_of_full a h, call_raisesCause_of_full nnn h⟩, fun h => ?_,
    fun h => ⟨pop_of_empty h, ret_raisesCause_of_empty h⟩, fun h => ?_⟩
  · obtain ⟨t, hpush, hstack, hsp, hpop⟩ := push_then_pop a h
    exact ⟨t, hpush, hstack, hsp, _, hpop, rfl, rfl⟩
  · have hsp : s.sp.val = s.sp.val - 1 + 1 := (Nat.succ_pred_eq_of_ne_zero h).symm
    have hlt : s.sp.val - 1 < 16 := by omega
    exact ⟨_, hlt, pop_of_sp_eq_succ hlt hsp, hsp.symm, rfl⟩

end Sys2Proof.Machine
end

section
/-! SUPPORT. The parts of the state an instruction and a step can change (spec/10_state.md R42): the columns of the
access table, and for a raise `pc` and the latch (60 R275). -/

namespace Sys2Proof.Machine

variable {s t : State} {i : Instr}

/-- `PartsKept`, one clause per part. -/
theorem partsKept_iff {changed : List Part} :
    PartsKept s t changed ↔
      (.index ∉ changed → t.I = s.I) ∧ (.pc ∉ changed → t.pc = s.pc) ∧
      (.stack ∉ changed → t.sp = s.sp ∧ t.stack = s.stack) ∧ (.delayTimer ∉ changed → t.DT = s.DT) ∧
      (.soundTimer ∉ changed → t.ST = s.ST) ∧ (.pixels ∉ changed → t.px = s.px) ∧ (.keys ∉ changed → t.keys = s.keys) ∧
      (.run ∉ changed → t.paused = s.paused ∧ t.waitKey = s.waitKey) ∧ (.latch ∉ changed → t.fault = s.fault) ∧
      (.frameDirty ∉ changed → t.frameDirty = s.frameDirty) ∧ (.soundOn ∉ changed → t.soundOn = s.soundOn) ∧
      (.draws ∉ changed → t.draws = s.draws) ∧ (.cfg ∉ changed → t.cfg = s.cfg) := by
  constructor
  · intro h
    exact ⟨h .index, h .pc, h .stack, h .delayTimer, h .soundTimer, h .pixels, h .keys, h .run, h .latch, h .frameDirty,
      h .soundOn, h .draws, h .cfg⟩
  · rintro ⟨hindex, hpc, hstack, hdelay, hsound, hpixels, hkeys, hrun, hlatch, hdirty, hon, hdraws, hcfg⟩ p hp
    cases p
    exacts [hindex hp, hpc hp, hstack hp, hdelay hp, hsound hp, hpixels hp, hkeys hp, hrun hp, hlatch hp, hdirty hp,
      hon hp, hdraws hp, hcfg hp]

/-- A skip changes at most `pc` (41 R150). -/
theorem skipIf_keepsParts {cond : Bool} (h : skipIf cond s = .next t) : PartsKept s t [.pc] := by
  obtain rfl := Host.Outcome.next.inj h
  cases cond <;> simp [partsKept_iff]

/-- An instruction that answers a next state either changes its columns of R42 only or is one raise. -/
theorem exec_keepsParts_or_raise (h : exec i s = .next t) :
    PartsKept s t (writtenParts i) ∨ ∃ c, exec i s = raise i c s := by
  cases i
  case ret =>
    rw [exec_ret] at h ⊢
    rcases pop_cases s with ⟨_, e⟩ | ⟨_, _, _, e⟩ <;> rw [e] at h ⊢
    · exact .inr ⟨_, rfl⟩
    · cases h; exact .inl (by simp [partsKept_iff, writtenParts])
  case call =>
    rw [exec_call] at h ⊢
    rcases push_cases s s.pc with ⟨_, e⟩ | ⟨_, e⟩ <;> rw [e] at h ⊢
    · exact .inr ⟨_, rfl⟩
    · cases h; exact .inl (by simp [partsKept_iff, writtenParts])
  case drw x y n =>
    cases e : readBytes s.mem (effectiveAddr s 0) n.toNat with
    | ok rows => rw [exec_drw_ok e] at h; cases h; exact .inl (by simp [partsKept_iff, writtenParts])
    | error bad => exact .inr ⟨_, exec_drw_error e⟩
  case ldBVx x =>
    cases e : writeBytes s.mem (effectiveAddr s 0) (bcdDigits (s.reg x)) with
    | ok m => rw [exec_ldBVx_ok e] at h; cases h; exact .inl (by simp [partsKept_iff, writtenParts])
    | error bad => exact .inr ⟨_, exec_ldBVx_error e⟩
  case storeRegs x =>
    cases e : writeBytes s.mem (effectiveAddr s 0) (regsUpTo s x) with
    | ok m => rw [exec_storeRegs_ok e] at h; cases h; exact .inl (by simp [partsKept_iff, writtenParts])
    | error bad => exact .inr ⟨_, exec_storeRegs_error e⟩
  case loadRegs x =>
    cases e : readBytes s.mem (effectiveAddr s 0) (x.toNat + 1) with
    | ok bs => rw [exec_loadRegs_ok e] at h; cases h; exact .inl (by simp [partsKept_iff, writtenParts])
    | error bad => exact .inr ⟨_, exec_loadRegs_error e⟩
  case seByte | sneByte | seReg | sneReg | skp | sknp => exact .inl (skipIf_keepsParts h)
  all_goals
    obtain rfl := Host.Outcome.next.inj (h : Host.Outcome.next _ = _)
    exact .inl (by simp [partsKept_iff, writtenParts])

/-- Whether it completes or raises, an instruction changes no part but its columns of R42, `pc` and the latch. -/
theorem exec_keepsPart (h : exec i s = .next t) {p : Part} (hp : p ∉ [Part.pc, .latch]) (hw : p ∉ writtenParts i) :
    Part.same s t p := by
  rcases exec_keepsParts_or_raise h with hkept | ⟨c, e⟩
  · exact hkept p hw
  · obtain ⟨t', _, e', _, _, _, hkept, _⟩ := raisesCause_of_exec_eq_raise e
    obtain rfl : t' = t := Host.Outcome.next.inj (e'.symm.trans h)
    exact hkept p hp

/-- The advance before an instruction runs changes `pc` only (40 R122). -/
theorem advance_keepsParts (s : State) : PartsKept s (advance s) [.pc] := by simp [partsKept_iff]

theorem Part.same_refl (s : State) (p : Part) : Part.same s s p := by
  cases p <;> simp [Part.same]

/-- A part that two transitions in a row each leave the same is the same after both. -/
theorem Part.same_trans {u : State} {p : Part} (h : Part.same s t p) (h' : Part.same t u p) : Part.same s u p := by
  cases p
  case stack | run => exact ⟨h'.1.trans h.1, h'.2.trans h.2⟩
  all_goals exact Eq.trans h' h

/-- A step changes a part other than `pc` and the latch only by an instruction whose columns of R42 list it. -/
theorem step_keepsPart_or_exec (h : step s = .next t) {p : Part} (hp : p ∉ [Part.pc, .latch]) :
    Part.same s t p ∨ ∃ i, decode s.opcode = some i ∧ p ∈ writtenParts i ∧ exec i (advance s) = .next t := by
  have raised : ∀ a op c, PartsKept s (raiseAt a op c s) [.pc, .latch] := fun a op c => by simp [partsKept_iff]
  have hpc : p ∉ [Part.pc] := mt (List.mem_append_left [Part.latch]) hp
  rcases step_cases s with ⟨_, e⟩ | ⟨_, _, e⟩ | ⟨_, _, _, e⟩ | ⟨i, _, _, hd, e⟩ <;> rw [e] at h
  · cases h; exact .inl (Part.same_refl s p)
  · cases h; exact .inl (raised _ _ _ p hp)
  · cases h; exact .inl (raised _ _ _ p hp)
  · by_cases hw : p ∈ writtenParts i
    · exact .inr ⟨i, hd, hw, h⟩
    · exact .inl (Part.same_trans (advance_keepsParts s p hpc) (exec_keepsPart h hp hw))

end Sys2Proof.Machine
end

section
/-! SUPPORT. The timers: what a tick does to them (spec/40_execution_cycle.md R127), and which steps and host events
change one. -/

namespace Sys2Proof.Machine

variable {s t : State}

theorem tickTimer_toNat (v : Byte) : (tickTimer v).toNat = v.toNat - 1 := by
  have := v.isLt
  simp only [tickTimer, BitVec.toNat_ofNat]
  omega

/-- `n` ticks bring each timer from `v` to `v - n`, not below zero. -/
theorem repeat_tickTimers_toNat (n : Nat) (s : State) :
    (Nat.repeat tickTimers n s).DT.toNat = s.DT.toNat - n ∧ (Nat.repeat tickTimers n s).ST.toNat = s.ST.toNat - n := by
  induction n with
  | zero => exact ⟨rfl, rfl⟩
  | succ n ih =>
    obtain ⟨hDT, hST⟩ := ih
    simp only [Nat.repeat, tickTimers, tickTimer_toNat, hDT, hST, Nat.sub_sub, and_self]

theorem tickTimers_keepsParts (s : State) : PartsKept s (tickTimers s) [.delayTimer, .soundTimer] := by
  simp [partsKept_iff, tickTimers]

/-- `LD DT, Vx` alone has the delay timer among its columns (10 R42). -/
theorem delayTimer_mem_writtenParts {i : Instr} : .delayTimer ∈ writtenParts i ↔ ∃ x, i = .ldDTVx x := by
  cases i <;> simp [writtenParts]

/-- `LD ST, Vx` alone has the sound timer among its columns (10 R42). -/
theorem soundTimer_mem_writtenParts {i : Instr} : .soundTimer ∈ writtenParts i ↔ ∃ x, i = .ldSTVx x := by
  cases i <;> simp [writtenParts]

/-- A step changes the delay timer only by `LD DT, Vx` (47 R252). -/
theorem step_DT (h : step s = .next t) :
    t.DT = s.DT ∨ ∃ x, decode s.opcode = some (.ldDTVx x) ∧ t.DT = s.reg x := by
  rcases step_keepsPart_or_exec h (p := .delayTimer) (by decide) with hsame | ⟨i, hd, hw, he⟩
  · exact .inl hsame
  · obtain ⟨x, rfl⟩ := delayTimer_mem_writtenParts.1 hw
    cases he
    exact .inr ⟨x, hd, rfl⟩

/-- A step changes the sound timer only by `LD ST, Vx` (47 R253). -/
theorem step_ST (h : step s = .next t) :
    t.ST = s.ST ∨ ∃ x, decode s.opcode = some (.ldSTVx x) ∧ t.ST = s.reg x := by
  rcases step_keepsPart_or_exec h (p := .soundTimer) (by decide) with hsame | ⟨i, hd, hw, he⟩
  · exact .inl hsame
  · obtain ⟨x, rfl⟩ := soundTimer_mem_writtenParts.1 hw
    cases he
    exact .inr ⟨x, hd, rfl⟩

/-- A host event other than `Reset` and `LoadROM` changes no timer. -/
theorem applyEvent_keepsTimers {e : HostEvent} (s : State) (hreset : e ≠ .reset)
    (hload : ∀ bytes, e ≠ .loadRom bytes) : (applyEvent e s).1.DT = s.DT ∧ (applyEvent e s).1.ST = s.ST := by
  cases e with
  | keyPress k => exact ⟨rfl, rfl⟩
  | keyRelease k =>
    show (keyRelease k s).DT = s.DT ∧ (keyRelease k s).ST = s.ST
    rcases keyRelease_cases k s with e | ⟨r, _, _, e⟩ <;> rw [e] <;> exact ⟨rfl, rfl⟩
  | hostPause => exact ⟨rfl, rfl⟩
  | hostResume =>
    show (hostResume s).DT = s.DT ∧ (hostResume s).ST = s.ST
    unfold hostResume
    split <;> exact ⟨rfl, rfl⟩
  | reset => exact absurd rfl hreset
  | loadRom bytes => exact absurd rfl (hload bytes)

end Sys2Proof.Machine
end

section
/-! SUPPORT. Family 40_execution_cycle.md settled: the timers' one decrement, and the idle step. -/

namespace Sys2Proof.Machine

/-- Settles O51: the tick by its own equations and induction on the number of ticks, steps by the columns of R42, host
events case by case. -/
theorem onlyTickCountsTimersDown : Obligations.OnlyTickCountsTimersDown :=
  ⟨fun s => ⟨tickTimer_toNat s.DT, tickTimer_toNat s.ST, fun _ _ => rfl, tickTimers_keepsParts s, fun _ => rfl⟩,
    repeat_tickTimers_toNat, fun _ _ h => ⟨step_DT h, step_ST h⟩, fun _ s => applyEvent_keepsTimers s⟩

/-- Settles O14: each of the three reasons says that the machine is not `Running`. -/
theorem stepIdleUnlessRunning : Obligations.StepIdleUnlessRunning := by
  intro s reason
  apply step_of_not_running
  intro hrun
  obtain ⟨hfault, hwait, hpaused⟩ := runState_running.1 hrun
  rcases reason with h | h | h
  · exact h hfault
  · exact h hwait
  · exact Bool.noConfusion (hpaused.symm.trans h)

end Sys2Proof.Machine
end

section
/-! SUPPORT. Decoding the words of the loads and the 8-bit ALU: `6xkk`, and the words `8xyl`, which only the records of
the ALU group can match (spec/30_encoding.md R94, R95). -/

namespace Sys2Proof

/-- Records that do not match are passed over by the scan (30 R95). -/
theorem firstMatch_append_of_no_hit {op : Word} {rs : List Record} (rest : List Record)
    (h : ∀ r ∈ rs, r.hits op = false) : firstMatch op (rs ++ rest) = firstMatch op rest := by
  induction rs with
  | nil => rfl
  | cons r rs ih =>
    obtain ⟨hr, hrs⟩ := List.forall_mem_cons.1 h
    simp [firstMatch, hr, ih hrs]

/-- The word of a format-XY row as its pattern of R94, the fixed nibbles, plus the operand fields. -/
theorem ofNat_eq_wordXY (high x y low : Nibble) :
    BitVec.ofNat 16 (high.toNat * 4096 + low.toNat + x.toNat * 256 + y.toNat * 16) = wordXY high x y low :=
  congrArg (BitVec.ofNat 16) (by omega)

/-- A word `8xyl` is looked up from the ALU group on: no record before it has the top nibble 8. -/
theorem decode_wordXY_alu (x y l : Nibble) :
    decode (wordXY 0x8#4 x y l) = firstMatch (wordXY 0x8#4 x y l) (catalogAlu ++ (catalogMid ++ catalogHigh)) :=
  firstMatch_append_of_no_hit _ (by
    simp [catalogLow, hits_recZ, hits_recA, hits_recXB, hits_recXY, wordXY_top, ne_of_top])

/-- A record of the ALU group matches a word `8xyl` by the lowest nibble. -/
theorem hits_recXY_alu {p : Word} {f : Reg → Reg → Instr} {x y l : Nibble} (hp : p.toNat / 16 = 0x800) :
    (recXY p f).hits (wordXY 0x8#4 x y l) = decide (l.toNat = p.toNat % 16) := by
  have htop : p.toNat / 4096 = 8 := by omega
  simp [hits_recXY p f _ (by omega : p.toNat / 16 % 256 = 0), wordXY_top, wordXY_low, htop]

theorem decode_ldByte (x : Reg) (kk : Byte) : decode (wordX 0x6#4 x kk) = some (.ldByte x kk) := by
  simp [decode, catalog, catalogLow, firstMatch, hits_recZ, hits_recA, hits_recXB, hits_recXY, wordX_top, ne_of_top]

theorem decode_addReg (x y : Reg) : decode (wordXY 0x8#4 x y 0x4#4) = some (.addReg x y) := by
  simp [decode_wordXY_alu, catalogAlu, firstMatch, hits_recXY_alu]

theorem decode_subReg (x y : Reg) : decode (wordXY 0x8#4 x y 0x5#4) = some (.subReg x y) := by
  simp [decode_wordXY_alu, catalogAlu, firstMatch, hits_recXY_alu]

end Sys2Proof
end

section
/-! SUPPORT. The two forms of write an ALU instruction ends in, one register alone and the flag then the destination, with
what each keeps; and the values written, in arithmetic (spec/42_load_alu.md R170, R180). -/

namespace Sys2Proof.Machine

variable (s : State)

theorem setReg_keepsRegs (x : Reg) (v : Byte) : RegsKept s (s.setReg x v) [x] :=
  fun _ hk => reg_setReg_ne s v (List.ne_of_not_mem_cons hk)

theorem setReg_keepsParts (x : Reg) (v : Byte) : PartsKept s (s.setReg x v) [] := by simp [partsKept_iff]

/-- An instruction that is one register write has no other effect. -/
theorem writesRegOnly_of_exec_eq_setReg {i : Instr} {x : Reg} {v : Byte} (h : exec i s = .next (s.setReg x v)) :
    WritesRegOnly i s x v :=
  ⟨_, h, reg_setReg_same s x v, setReg_keepsRegs s x v, setReg_keepsParts s x v, fun _ => rfl⟩

@[simp] theorem reg_setFlagThenReg_same (flag : Byte) (x : Reg) (r : Byte) : (setFlagThenReg s flag x r).reg x = r :=
  reg_setReg_same _ x r

/-- The flag stays as written unless the destination is `VF` itself (42 R170). -/
theorem reg_setFlagThenReg_VF {x : Reg} (flag r : Byte) (h : x ≠ VF) : (setFlagThenReg s flag x r).reg VF = flag := by
  rw [reg_setFlagThenReg, if_neg h.symm, if_pos rfl]

theorem setFlagThenReg_keepsRegs (flag : Byte) (x : Reg) (r : Byte) :
    RegsKept s (setFlagThenReg s flag x r) [x, VF] := by
  intro k hk
  obtain ⟨hx, hflag⟩ : k ≠ x ∧ k ≠ VF := by simpa using hk
  rw [reg_setFlagThenReg, if_neg hx, if_neg hflag]

theorem setFlagThenReg_keepsParts (flag : Byte) (x : Reg) (r : Byte) : PartsKept s (setFlagThenReg s flag x r) [] := by
  simp [partsKept_iff]

theorem flagByte_decide (p : Prop) [Decidable p] : flagByte (decide p) = if p then 0x01#8 else 0x00#8 := by
  simp [flagByte]

theorem addResult_toNat (a b : Byte) : (addResult a b).toNat = (a.toNat + b.toNat) % 256 := BitVec.toNat_ofNat _ _

theorem subResult_toNat (a b : Byte) : (subResult a b).toNat = (a.toNat + 256 - b.toNat) % 256 := BitVec.toNat_ofNat _ _

/-- What the flag-writing ALU instructions share: one that writes `flag` and then `r` into `V[x]` completes with `r` in
`V[x]`, with `flag` in `VF` unless `x` is 15, and changes nothing else (42 R170, R180). -/
theorem exec_writesFlagThenReg {i : Instr} {x : Reg} {flag r : Byte}
    (h : exec i s = .next (setFlagThenReg s flag x r)) :
    ∃ t, exec i s = .next t ∧ t.reg x = r ∧ (x ≠ VF → t.reg VF = flag) ∧
      RegsKept s t [x, VF] ∧ PartsKept s t [] ∧ BytesKept s t :=
  ⟨_, h, reg_setFlagThenReg_same s flag x r, reg_setFlagThenReg_VF s flag r, setFlagThenReg_keepsRegs s flag x r,
    setFlagThenReg_keepsParts s flag x r, fun _ => rfl⟩

end Sys2Proof.Machine
end

section
/-! SUPPORT. Family 42_load_alu.md settled: LD Vx, byte, and ADD and SUB on two registers. -/

namespace Sys2Proof.Machine

/-- Settles O26: flag and sum are written by `setFlagThenReg`, the flag first. -/
theorem addWritesCarryThenSum : Obligations.AddWritesCarryThenSum := by
  intro x y s
  refine ⟨(congrArg decode (ofNat_eq_wordXY 0x8#4 x y 0x4#4)).trans (decode_addReg x y), ?_⟩
  obtain ⟨t, hexec, hsum, hcarry, hkept⟩ := exec_writesFlagThenReg s (i := .addReg x y) rfl
  exact ⟨t, hexec, hsum ▸ addResult_toNat _ _, fun hx => (hcarry hx).trans (flagByte_decide _), hkept⟩

/-- Settles O27: flag and difference are written by `setFlagThenReg`, both from the operands before the write. -/
theorem subWritesNotBorrowThenDifference : Obligations.SubWritesNotBorrowThenDifference := by
  intro x y s
  refine ⟨(congrArg decode (ofNat_eq_wordXY 0x8#4 x y 0x5#4)).trans (decode_subReg x y), ?_⟩
  obtain ⟨t, hexec, hdiff, hflag, hkept⟩ := exec_writesFlagThenReg s (i := .subReg x y) rfl
  exact ⟨t, hexec, hdiff ▸ subResult_toNat _ _, fun hx => (hflag hx).trans (flagByte_decide _), hkept⟩

/-- Settles O23: the word by its format, the effect as one register write. -/
theorem loadImmediateWritesRegister : Obligations.LoadImmediateWritesRegister :=
  fun x kk s => ⟨decode_ldByte x kk, writesRegOnly_of_exec_eq_setReg s rfl⟩

end Sys2Proof.Machine
end

section
/-! SUPPORT. SHR: its word, its operand under the shift mode, and the flag and result in arithmetic
(spec/43_shift.md R190, R191). -/

namespace Sys2Proof

theorem decode_shr (x y : Reg) : decode (wordXY 0x8#4 x y 0x6#4) = some (.shr x y) := by
  simp [decode_wordXY_alu, catalogAlu, firstMatch, hits_recXY_alu]

namespace Machine

/-- The operand of a shift by the mode: `V[y]` under `ShiftVy`, `V[x]` otherwise (43 R190). -/
theorem shiftOperand_eq_ite (x y : Reg) (s : State) :
    shiftOperand x y s = if s.cfg.shiftMode = .shiftVy then s.reg y else s.reg x := by
  unfold shiftOperand
  cases s.cfg.shiftMode <;> rfl

theorem shrResult_toNat (src : Byte) : (shrResult src).toNat = src.toNat / 2 := by
  rw [shrResult, BitVec.toNat_ushiftRight, Nat.shiftRight_one]

/-- The bit shifted out says whether the operand is odd (43 R191). -/
theorem shrFlag_eq_ite (src : Byte) : shrFlag src = if src.toNat % 2 = 1 then 0x01#8 else 0x00#8 := by
  have bit0 : src.getLsbD 0 = decide (src.toNat % 2 = 1) := Nat.testBit_zero src.toNat
  rw [shrFlag, bit0, flagByte_decide]

end Machine

end Sys2Proof
end

section
/-! SUPPORT. Family 43_shift.md settled: SHR Vx, Vy. -/

namespace Sys2Proof.Machine

/-- Settles O29: flag and half are written by `setFlagThenReg`, both from the operand the shift mode names. -/
theorem shiftRightWritesLowBitThenHalf : Obligations.ShiftRightWritesLowBitThenHalf := by
  intro x y s src hsrc
  refine ⟨(congrArg decode (ofNat_eq_wordXY 0x8#4 x y 0x6#4)).trans (decode_shr x y), ?_⟩
  obtain rfl : shiftOperand x y s = src := (shiftOperand_eq_ite x y s).trans hsrc.symm
  obtain ⟨t, hexec, hhalf, hflag, hkept⟩ := exec_writesFlagThenReg s (i := .shr x y) rfl
  exact ⟨t, hexec, hhalf ▸ shrResult_toNat _, fun hx => (hflag hx).trans (shrFlag_eq_ite _), hkept⟩

end Sys2Proof.Machine
end

section
/-! SUPPORT. Decoding the words of the index and memory family: `Annn`, and the words `Fxkk`, which only the last
group of the catalog can match (spec/30_encoding.md R94, R95). -/

namespace Sys2Proof

/-- The word of a format-X row as its pattern of R94, the fixed top nibble and low byte, plus the operand field. -/
theorem ofNat_eq_wordX (high x : Nibble) (low : Byte) :
    BitVec.ofNat 16 (high.toNat * 4096 + low.toNat + x.toNat * 256) = wordX high x low :=
  congrArg (BitVec.ofNat 16) (by omega)

/-- A word `Fxkk` is looked up in the last group only: no record before it has the top nibble F. -/
theorem decode_wordX_F (x : Reg) (low : Byte) :
    decode (wordX 0xF#4 x low) = firstMatch (wordX 0xF#4 x low) catalogHigh := by
  rw [decode, catalog, firstMatch_append_of_no_hit, firstMatch_append_of_no_hit, firstMatch_append_of_no_hit]
  · simp [catalogMid, hits_recA, hits_recXB, hits_recXY, hits_recXYN, hits_recX, wordX_top]
  · simp [catalogAlu, hits_recXY, wordX_top]
  · simp [catalogLow, hits_recZ, hits_recA, hits_recXB, hits_recXY, wordX_top, ne_of_top]

/-- A record of the last group matches a word `Fxkk` by the low byte. -/
theorem hits_recX_F {p : Word} {f : Reg → Instr} {x : Reg} {low : Byte} (hp : p.toNat / 256 = 0xF0) :
    (recX p f).hits (wordX 0xF#4 x low) = decide (low.toNat = p.toNat % 256) := by
  have htop : p.toNat / 4096 = 15 := by omega
  simp [hits_recX p f _ (by omega : p.toNat / 256 % 16 = 0), wordX_top, wordX_low, htop]

theorem decode_ldI (nnn : Addr12) : decode (wordA 0xA#4 nnn) = some (.ldI nnn) := by
  rw [decode, catalog, firstMatch_append_of_no_hit, firstMatch_append_of_no_hit]
  · simp [catalogMid, firstMatch, hits_recXY, hits_recA, wordA_top]
  · simp [catalogAlu, hits_recXY, wordA_top]
  · simp [catalogLow, hits_recZ, hits_recA, hits_recXB, hits_recXY, wordA_top, ne_of_top]

theorem decode_ldFVx (x : Reg) : decode (wordX 0xF#4 x 0x29#8) = some (.ldFVx x) := by
  simp [decode_wordX_F, catalogHigh, firstMatch, hits_recX_F]

theorem decode_ldBVx (x : Reg) : decode (wordX 0xF#4 x 0x33#8) = some (.ldBVx x) := by
  simp [decode_wordX_F, catalogHigh, firstMatch, hits_recX_F]

theorem decode_storeRegs (x : Reg) : decode (wordX 0xF#4 x 0x55#8) = some (.storeRegs x) := by
  simp [decode_wordX_F, catalogHigh, firstMatch, hits_recX_F]

theorem decode_loadRegs (x : Reg) : decode (wordX 0xF#4 x 0x65#8) = some (.loadRegs x) := by
  simp [decode_wordX_F, catalogHigh, firstMatch, hits_recX_F]

end Sys2Proof
end

section
/-! SUPPORT. The index register and the transfers of several bytes, in bounds and out (spec/44_index_memory.md R204,
R207; spec/60_exceptions.md R271), and what the writes of `I` and of memory keep. -/

namespace Sys2Proof.Machine

variable (s : State)

theorem zext16_toNat (nnn : Addr12) : (zext16 nnn).toNat = nnn.toNat := BitVec.toNat_setWidth_of_le (by decide)

/-- The product of a byte with 5 fits a word: the whole byte counts (44 R202). -/
theorem glyphAddr_toNat (vx : Byte) : (glyphAddr vx).toNat = vx.toNat * 5 := by
  have := vx.isLt
  simp only [glyphAddr, BitVec.toNat_ofNat]
  omega

/-- What a block transfer from `i0` leaves in `I`, one clause per index mode (44 R204). -/
theorem indexAfter_spec (mode : IndexMode) (i0 : Word) (x : Reg) :
    (mode = .unchanged → indexAfter mode i0 x = i0) ∧
    (mode = .incByX → (indexAfter mode i0 x).toNat = (i0.toNat + x.toNat) % 65536) ∧
    (mode = .incByXPlus1 → (indexAfter mode i0 x).toNat = (i0.toNat + x.toNat + 1) % 65536) := by
  refine ⟨?_, ?_, ?_⟩ <;> rintro rfl
  · rfl
  · exact BitVec.toNat_ofNat _ _
  · exact BitVec.toNat_ofNat _ _

/-- An instruction that is one write of `I` has no other effect. -/
theorem exec_writesIndex {i : Instr} {v : Word} (h : exec i s = .next (s.setI v)) :
    ∃ t, exec i s = .next t ∧ t.I = v ∧ RegsKept s t [] ∧ PartsKept s t [.index] ∧ BytesKept s t :=
  ⟨_, h, rfl, fun _ _ => rfl, by simp [partsKept_iff], fun _ => rfl⟩

/-- A write of bytes that all lie in memory stores each at its own address and leaves every other address alone. -/
theorem writeBytes_ok {m : Memory} {a : Nat} {bytes : List Byte} (hm : m.wf) (h : a + bytes.length ≤ memSize) :
    ∃ m', writeBytes m a bytes = .ok m' ∧
      (∀ j, j < bytes.length → memRead m' (a + j) = .ok (bytes.getD j 0#8)) ∧
      ∀ b, (b < a ∨ a + bytes.length ≤ b) → memRead m' b = memRead m b := by
  obtain ⟨_, hbyte⟩ := placeBytes_spec a bytes hm h
  refine ⟨placeBytes m a bytes, ?_, fun j hj => ?_, fun b hb => ?_⟩
  · rcases writeBytes_cases m a bytes with ⟨_, e⟩ | ⟨_, hout, _⟩
    · exact e
    · omega
  · rw [memRead_ok (by omega), hbyte, if_pos (by omega), Nat.add_sub_cancel_left]
  · exact memRead_congr ((hbyte b).trans (if_neg (by omega)))

/-- A write that would leave memory stops at the lowest out-of-range address (60 R271). -/
theorem writeBytes_error {m : Memory} {a : Nat} {bytes : List Byte} (hne : bytes ≠ [])
    (h : memSize < a + bytes.length) : writeBytes m a bytes = .error (max a memSize) := by
  rcases writeBytes_cases m a bytes with ⟨hnil | hin, _⟩ | ⟨_, _, e⟩
  · exact absurd hnil hne
  · omega
  · exact e

/-- A read of bytes that all lie in memory answers one byte per address. -/
theorem readBytes_ok {m : Memory} {a n : Nat} (h : a + n ≤ memSize) :
    ∃ bytes, readBytes m a n = .ok bytes ∧ bytes.length = n ∧
      ∀ j, j < n → memRead m (a + j) = .ok (bytes.getD j 0#8) := by
  rcases readBytes_cases m a n with ⟨_, e⟩ | ⟨_, hout, _⟩
  · refine ⟨_, e, by simp, fun j hj => ?_⟩
    rw [memRead_ok (by omega), List.getD_eq_getElem _ _ (by simpa using hj)]
    simp
  · omega

/-- A read that would leave memory stops at the lowest out-of-range address (60 R271). -/
theorem readBytes_error {m : Memory} {a n : Nat} (hpos : 0 < n) (h : memSize < a + n) :
    readBytes m a n = .error (max a memSize) := by
  rcases readBytes_cases m a n with ⟨hzero | hin, _⟩ | ⟨_, _, e⟩
  · omega
  · omega
  · exact e

theorem regsUpTo_ne_nil (x : Reg) : regsUpTo s x ≠ [] :=
  List.ne_nil_of_length_eq_add_one (length_regsUpTo s x)

end Sys2Proof.Machine
end

section
/-! SUPPORT. Family 44_index_memory.md settled: LD I, LD F, LD B, and the two block transfers. -/

namespace Sys2Proof.Machine

/-- Settles O31: both loads are one write of `I`. -/
theorem indexLoadsPutAddressInI : Obligations.IndexLoadsPutAddressInI := by
  intro nnn x s
  obtain ⟨t, hexec, hI, hkept⟩ := exec_writesIndex s (i := .ldI nnn) rfl
  obtain ⟨u, hexec', hI', hkept'⟩ := exec_writesIndex s (i := .ldFVx x) rfl
  exact ⟨⟨decode_ldI nnn, t, hexec, hI ▸ zext16_toNat nnn, hkept⟩,
    (congrArg decode (ofNat_eq_wordX 0xF#4 x 0x29#8)).trans (decode_ldFVx x),
      u, hexec', hI' ▸ glyphAddr_toNat _, hkept'⟩

/-- Settles O33: the three digits are one write of bytes, in bounds up to 0xFFD. -/
theorem bcdStoresThreeDigits : Obligations.BcdStoresThreeDigits := by
  rintro x s a hm rfl
  refine ⟨(congrArg decode (ofNat_eq_wordX 0xF#4 x 0x33#8)).trans (decode_ldBVx x), fun hin => ?_, fun hout => ?_⟩
  · have hfit : effectiveAddr s 0 + (bcdDigits (s.reg x)).length ≤ memSize :=
      Nat.add_le_add_right (Nat.le_of_lt_succ hin) 3
    obtain ⟨m', hwrite, hread, hkept⟩ := writeBytes_ok hm hfit
    exact ⟨_, exec_ldBVx_ok hwrite, hread 0 (by decide : 0 < 3), hread 1 (by decide : 1 < 3),
      hread 2 (by decide : 2 < 3), hkept, fun _ _ => rfl, by simp [partsKept_iff]⟩
  · have hleave : memSize < effectiveAddr s 0 + (bcdDigits (s.reg x)).length := Nat.add_le_add_right hout 3
    exact raisesCause_of_exec_eq_raise (exec_ldBVx_error (writeBytes_error (List.cons_ne_nil _ _) hleave))

/-- Settles O34: the registers are one write of `x + 1` bytes, and `I` moves after it. -/
theorem blockStoreWritesRegistersToMemory : Obligations.BlockStoreWritesRegistersToMemory := by
  rintro x s a hm rfl
  have hlen := length_regsUpTo s x
  refine ⟨(congrArg decode (ofNat_eq_wordX 0xF#4 x 0x55#8)).trans (decode_storeRegs x), fun hin => ?_, fun hout => ?_⟩
  · have hfit : effectiveAddr s 0 + (regsUpTo s x).length ≤ memSize := by rw [hlen]; exact hin
    obtain ⟨m', hwrite, hread, hkept⟩ := writeBytes_ok hm hfit
    refine ⟨_, exec_storeRegs_ok hwrite, fun j hj => ?_, hlen ▸ hkept, fun _ _ => rfl, by simp [partsKept_iff],
      indexAfter_spec s.cfg.indexMode s.I x⟩
    rw [← getD_regsUpTo s x j hj]
    exact hread j.toNat (by omega)
  · have hleave : memSize < effectiveAddr s 0 + (regsUpTo s x).length := by rw [hlen]; exact Nat.lt_succ_of_le hout
    exact raisesCause_of_exec_eq_raise (exec_storeRegs_error (writeBytes_error (regsUpTo_ne_nil s x) hleave))

/-- Settles O35: the bytes are one read of `x + 1` bytes, and `loadLow` gives each register its own. -/
theorem blockLoadReadsRegistersFromMemory : Obligations.BlockLoadReadsRegistersFromMemory := by
  rintro x s a rfl
  refine ⟨(congrArg decode (ofNat_eq_wordX 0xF#4 x 0x65#8)).trans (decode_loadRegs x), fun hin => ?_, fun hout => ?_⟩
  · obtain ⟨bytes, hread, hlen, hbyte⟩ := readBytes_ok (m := s.mem) (n := x.toNat + 1) (Nat.succ_le_of_lt hin)
    refine ⟨_, exec_loadRegs_ok hread, fun j hj => ?_, fun j hj => ?_, fun _ => rfl, by simp [partsKept_iff],
      indexAfter_spec s.cfg.indexMode s.I x⟩
    · rw [reg_setI, reg_loadLow, if_pos (by omega)]
      exact hbyte j.toNat (by omega)
    · rw [reg_setI, reg_loadLow, if_neg (by omega)]
  · exact raisesCause_of_exec_eq_raise (exec_loadRegs_error (readBytes_error (Nat.succ_pos _) (Nat.lt_succ_of_le hout)))

end Sys2Proof.Machine
end

section
/-! SUPPORT. The key wait: its word `Fx0A`, and what a machine in it does at a step, a tick part and each host event
(spec/40_execution_cycle.md R126, R130, R131, R133; spec/47_keys_timers.md R250). -/

namespace Sys2Proof

theorem decode_ldVxK (x : Reg) : decode (wordX 0xF#4 x 0x0A#8) = some (.ldVxK x) := by
  simp [decode_wordX_F, catalogHigh, firstMatch, hits_recX_F]

namespace Machine

variable {s : State} {x : Reg}

/-- `WaitingForKey`, spelled out (10 R37). -/
theorem runState_waitingForKey : s.runState = .waitingForKey ↔ s.fault = none ∧ ∃ r, s.waitKey = some r := by
  unfold State.runState
  rcases s.fault with _ | f <;> rcases s.waitKey with _ | r <;> cases s.paused <;> simp

theorem keyPress_runState (k : Nibble) (s : State) : (keyPress k s).runState = s.runState := rfl

/-- The host cannot resume a machine out of an armed wait (40 R133). -/
theorem hostResume_of_waitKey (hw : s.waitKey = some x) : hostResume s = s :=
  if_pos (Option.isSome_iff_exists.2 ⟨x, hw⟩)

/-- A release while the wait is armed ends it, with the key in the awaited register (40 R131). -/
theorem keyRelease_of_waitKey (k : Nibble) (hw : s.waitKey = some x) (hf : s.fault = none) :
    keyRelease k s =
      { ({ s with keys := s.keys.set k.toNat false k.isLt } : State).setReg x (k.setWidth 8) with
        waitKey := none, paused := false } := by
  simp [keyRelease, endWait, hw, hf]

theorem tickPart_px (s : State) : (tickPart s).1.px = s.px := by
  rcases tickPart_cases s with e | e <;> rw [e]

theorem reportFrame_timers (s : State) : (reportFrame s).1.DT = s.DT ∧ (reportFrame s).1.ST = s.ST := by
  unfold reportFrame
  split <;> exact ⟨rfl, rfl⟩

/-- The tick part of a machine that does not run counts no timer unless timers tick while paused (40 R126, D14). -/
theorem tickPart_timers_of_frozen (hrun : s.runState ≠ .running) (hcfg : s.cfg.tickWhenPaused = false) :
    (tickPart s).1.DT = s.DT ∧ (tickPart s).1.ST = s.ST := by
  have hfrozen : timersCount s = false := by simp [timersCount, hrun, hcfg]
  unfold tickPart
  rw [hfrozen]
  split
  · exact ⟨rfl, rfl⟩
  · exact reportFrame_timers (sampleSound s)

/-- A load that fits leaves no wait armed (70 R302). -/
theorem loadRom_waitKey {bytes : List Byte} (h : bytes.length ≤ 3584) (s : State) :
    (loadRom bytes s).1.waitKey = none := by
  have hfits : romFits bytes = true := decide_eq_true (Nat.add_le_add_right h loadAddr)
  simp [loadRom, hfits, resetMachine]

end Machine

end Sys2Proof
end

section
/-! SUPPORT. Family 47_keys_timers.md settled: the key wait. -/

namespace Sys2Proof.Machine

/-- Settles O48: the instruction is `armWait`, and the state it leaves is taken through the rules of an armed wait. -/
theorem keyWaitEndsOnReleaseOnly : Obligations.KeyWaitEndsOnReleaseOnly := by
  intro x s hf
  have hw : (s.armWait x).waitKey = some x := rfl
  have hwait : (s.armWait x).runState = .waitingForKey := runState_waitingForKey.2 ⟨hf, x, hw⟩
  have hidle : (s.armWait x).runState ≠ .running := by simp [hwait]
  refine ⟨(congrArg decode (ofNat_eq_wordX 0xF#4 x 0x0A#8)).trans (decode_ldVxK x),
    s.armWait x, rfl, hw, rfl, hwait, fun _ _ => rfl, by simp [partsKept_iff], fun _ => rfl,
    step_of_not_running hidle, fun k => ⟨(keyPress_runState k _).trans hwait, fun _ _ => rfl⟩,
    hostResume_of_waitKey hw, fun hcfg => ?_, fun k => ?_, rfl, fun _ h => loadRom_waitKey h _⟩
  · obtain ⟨hDT, hST⟩ := tickPart_timers_of_frozen hidle hcfg
    exact ⟨hDT, hST, tickPart_px _⟩
  · rw [keyRelease_of_waitKey k hw hf]
    exact ⟨reg_setReg_same _ x _, setReg_keepsRegs _ x _, runState_running.2 ⟨hf, rfl, rfl⟩, rfl⟩

end Sys2Proof.Machine
end

section
/-! SUPPORT. The catalog as a whole (spec/30_encoding.md R94 to R98): no two records match one opcode, so the first
match is the only one; and a record of each format against the words that format composes. -/

namespace Sys2Proof

/-- Two records that disagree on a bit both masks keep: no opcode matches both. -/
abbrev Record.disjoint (r q : Record) : Prop := r.pattern &&& q.mask ≠ q.pattern &&& r.mask

theorem Record.not_hits_of_disjoint {r q : Record} {op : Word} (h : r.disjoint q) (hr : r.hits op = true) :
    q.hits op = false := by
  rw [Record.hits, beq_iff_eq] at hr
  rw [Record.hits, beq_eq_false_iff_ne]
  intro hq
  apply h
  rw [← hr, ← hq, BitVec.and_assoc, BitVec.and_assoc, BitVec.and_comm r.mask]

theorem catalog_pairwise_disjoint : catalog.Pairwise Record.disjoint := by decide

/-- In a list of disjoint records at most one matches (30 R96). -/
theorem length_filter_hits_le_one {rs : List Record} (hrs : rs.Pairwise Record.disjoint) (op : Word) :
    (rs.filter fun r => r.hits op).length ≤ 1 := by
  induction rs with
  | nil => exact Nat.zero_le 1
  | cons r rs ih =>
    obtain ⟨hdisj, hrest⟩ := List.pairwise_cons.1 hrs
    by_cases hr : r.hits op = true
    · have hnone : (rs.filter fun q => q.hits op) = [] :=
        List.filter_eq_nil_iff.2 fun q hq => by simp [Record.not_hits_of_disjoint (hdisj q hq) hr]
      simp [hr, hnone]
    · simpa [hr] using ih hrest

/-- In a list of disjoint records the scan answers any record that matches, wherever it stands (30 R95). -/
theorem firstMatch_of_hits {rs : List Record} (hrs : rs.Pairwise Record.disjoint) {r : Record} (hm : r ∈ rs)
    {op : Word} (hr : r.hits op = true) : firstMatch op rs = some (r.build op) := by
  induction rs with
  | nil => cases hm
  | cons q rs ih =>
    obtain ⟨hdisj, hrest⟩ := List.pairwise_cons.1 hrs
    rcases List.mem_cons.1 hm with rfl | hm
    · rw [firstMatch, if_pos hr]
    · have hq : ¬ q.hits op = true := fun hq => by simp [Record.not_hits_of_disjoint (hdisj r hm) hq] at hr
      rw [firstMatch, if_neg hq]
      exact ih hrest hm

theorem decode_of_hits {r : Record} (hm : r ∈ catalog) {op : Word} (hr : r.hits op = true) :
    decode op = some (r.build op) := firstMatch_of_hits catalog_pairwise_disjoint hm hr

/-! ### A record of each format against the words it is written as -/

theorem decode_wordA {f : Addr12 → Instr} {high : Nibble} (hm : recA (wordA high 0#12) f ∈ catalog) (nnn : Addr12) :
    decode (wordA high nnn) = some (f nnn) := by
  have hhit : (recA (wordA high 0#12) f).hits (wordA high nnn) = true := by
    rw [hits_recA _ _ _ (by rw [toNat_wordA]; simp)]; simp [wordA_top]
  rw [decode_of_hits hm hhit, build_recA, fieldNnn_wordA]

theorem decode_wordX_of_recXB {f : Reg → Byte → Instr} {high : Nibble}
    (hm : recXB (wordX high 0#4 0#8) f ∈ catalog) (x : Reg) (kk : Byte) :
    decode (wordX high x kk) = some (f x kk) := by
  have hhit : (recXB (wordX high 0#4 0#8) f).hits (wordX high x kk) = true := by
    rw [hits_recXB _ _ _ (by rw [toNat_wordX]; simp)]; simp [wordX_top]
  rw [decode_of_hits hm hhit, build_recXB, fieldX_wordX, fieldKk_wordX]

theorem decode_wordX_of_recX {f : Reg → Instr} {high : Nibble} {low : Byte}
    (hm : recX (wordX high 0#4 low) f ∈ catalog) (x : Reg) : decode (wordX high x low) = some (f x) := by
  have hhit : (recX (wordX high 0#4 low) f).hits (wordX high x low) = true := by
    rw [hits_recX _ _ _ (by rw [toNat_wordX]; simp; omega)]; simp [wordX_top, wordX_low]
  rw [decode_of_hits hm hhit, build_recX, fieldX_wordX]

theorem decode_wordXY_of_recXY {f : Reg → Reg → Instr} {high low : Nibble}
    (hm : recXY (wordXY high 0#4 0#4 low) f ∈ catalog) (x y : Reg) : decode (wordXY high x y low) = some (f x y) := by
  have hhit : (recXY (wordXY high 0#4 0#4 low) f).hits (wordXY high x y low) = true := by
    rw [hits_recXY _ _ _ (by rw [toNat_wordXY]; simp; omega)]; simp [wordXY_top, wordXY_low]
  rw [decode_of_hits hm hhit, build_recXY, fieldX_wordXY, fieldY_wordXY]

theorem decode_wordXY_of_recXYN {f : Reg → Reg → Nibble → Instr} {high : Nibble}
    (hm : recXYN (wordXY high 0#4 0#4 0#4) f ∈ catalog) (x y : Reg) (n : Nibble) :
    decode (wordXY high x y n) = some (f x y n) := by
  have hhit : (recXYN (wordXY high 0#4 0#4 0#4) f).hits (wordXY high x y n) = true := by
    rw [hits_recXYN _ _ _ (by rw [toNat_wordXY]; simp)]; simp [wordXY_top]
  rw [decode_of_hits hm hhit, build_recXYN, fieldX_wordXY, fieldY_wordXY, fieldN_wordXY]

/-- The word of every instruction decodes to it, one clause per row of R94. -/
theorem decode_encode (i : Instr) : decode (encode i) = some i := by
  have inLow {r : Record} (h : r ∈ catalogLow) : r ∈ catalog := by simp [catalog, h]
  have inAlu {r : Record} (h : r ∈ catalogAlu) : r ∈ catalog := by simp [catalog, h]
  have inMid {r : Record} (h : r ∈ catalogMid) : r ∈ catalog := by simp [catalog, h]
  have inHigh {r : Record} (h : r ∈ catalogHigh) : r ∈ catalog := by simp [catalog, h]
  cases i with
  | cls | ret => decide
  | jp nnn | call nnn => exact decode_wordA (inLow (by simp [catalogLow, wordA])) nnn
  | seByte x kk | sneByte x kk | addByte x kk => exact decode_wordX_of_recXB (inLow (by simp [catalogLow, wordX])) x kk
  | seReg x y => exact decode_wordXY_of_recXY (inLow (by simp [catalogLow, wordXY])) x y
  | ldReg x y | orReg x y | andReg x y | xorReg x y | subnReg x y | shl x y =>
    exact decode_wordXY_of_recXY (inAlu (by simp [catalogAlu, wordXY])) x y
  | sneReg x y => exact decode_wordXY_of_recXY (inMid (by simp [catalogMid, wordXY])) x y
  | jpV0 nnn => exact decode_wordA (inMid (by simp [catalogMid, wordA])) nnn
  | rnd x kk => exact decode_wordX_of_recXB (inMid (by simp [catalogMid, wordX])) x kk
  | drw x y n => exact decode_wordXY_of_recXYN (inMid (by simp [catalogMid, wordXY])) x y n
  | skp x | sknp x => exact decode_wordX_of_recX (inMid (by simp [catalogMid, wordX])) x
  | ldVxDT x | ldDTVx x | ldSTVx x | addIVx x => exact decode_wordX_of_recX (inHigh (by simp [catalogHigh, wordX])) x
  | ldByte x kk => exact decode_ldByte x kk
  | addReg x y => exact decode_addReg x y
  | subReg x y => exact decode_subReg x y
  | shr x y => exact decode_shr x y
  | ldI nnn => exact decode_ldI nnn
  | ldVxK x => exact decode_ldVxK x
  | ldFVx x => exact decode_ldFVx x
  | ldBVx x => exact decode_ldBVx x
  | storeRegs x => exact decode_storeRegs x
  | loadRegs x => exact decode_loadRegs x

/-! ### A word a record matches is the word of the instruction it builds -/

theorem wordA_eq_of_toNat {op : Word} {high : Nibble} (h : op.toNat / 4096 = high.toNat) :
    wordA high (fieldNnn op) = op := by
  apply BitVec.eq_of_toNat_eq; rw [toNat_wordA, toNat_fieldNnn]; omega

theorem wordX_eq_of_toNat {op : Word} {high : Nibble} (h : op.toNat / 4096 = high.toNat) :
    wordX high (fieldX op) (fieldKk op) = op := by
  apply BitVec.eq_of_toNat_eq; rw [toNat_wordX, toNat_fieldX, toNat_fieldKk]; omega

theorem wordXY_eq_of_toNat {op : Word} {high : Nibble} (h : op.toNat / 4096 = high.toNat) :
    wordXY high (fieldX op) (fieldY op) (fieldN op) = op := by
  apply BitVec.eq_of_toNat_eq; rw [toNat_wordXY, toNat_fieldX, toNat_fieldY, toNat_fieldN]; omega

/-- Every opcode a record matches is the encoding of the instruction the record builds from it. -/
abbrev Record.faithful (r : Record) : Prop := ∀ op, r.hits op = true → encode (r.build op) = op

theorem recZ_faithful {p : Word} {i : Instr} (henc : encode i = p) : (recZ p i).faithful := fun op hr => by
  rw [hits_recZ, decide_eq_true_iff] at hr
  rw [build_recZ, henc]
  exact (BitVec.eq_of_toNat_eq hr).symm

theorem recA_faithful {p : Word} {f : Addr12 → Instr} {high : Nibble} (henc : ∀ nnn, encode (f nnn) = wordA high nnn)
    (hp : p.toNat = high.toNat * 4096) : (recA p f).faithful := fun op hr => by
  rw [hits_recA _ _ _ (by omega), decide_eq_true_iff] at hr
  rw [build_recA, henc, wordA_eq_of_toNat (by omega)]

theorem recXB_faithful {p : Word} {f : Reg → Byte → Instr} {high : Nibble}
    (henc : ∀ x kk, encode (f x kk) = wordX high x kk) (hp : p.toNat = high.toNat * 4096) :
    (recXB p f).faithful := fun op hr => by
  rw [hits_recXB _ _ _ (by omega), decide_eq_true_iff] at hr
  rw [build_recXB, henc, wordX_eq_of_toNat (by omega)]

theorem recXYN_faithful {p : Word} {f : Reg → Reg → Nibble → Instr} {high : Nibble}
    (henc : ∀ x y n, encode (f x y n) = wordXY high x y n) (hp : p.toNat = high.toNat * 4096) :
    (recXYN p f).faithful := fun op hr => by
  rw [hits_recXYN _ _ _ (by omega), decide_eq_true_iff] at hr
  rw [build_recXYN, henc, wordXY_eq_of_toNat (by omega)]

theorem recXY_faithful {p : Word} {f : Reg → Reg → Instr} {high low : Nibble}
    (henc : ∀ x y, encode (f x y) = wordXY high x y low) (hp : p.toNat = high.toNat * 4096 + low.toNat) :
    (recXY p f).faithful := fun op hr => by
  rw [hits_recXY _ _ _ (by omega), decide_eq_true_iff] at hr
  have hlow : fieldN op = low := BitVec.eq_of_toNat_eq (by rw [toNat_fieldN]; omega)
  rw [build_recXY, henc, ← hlow, wordXY_eq_of_toNat (by omega)]

theorem recX_faithful {p : Word} {f : Reg → Instr} {high : Nibble} {low : Byte}
    (henc : ∀ x, encode (f x) = wordX high x low) (hp : p.toNat = high.toNat * 4096 + low.toNat) :
    (recX p f).faithful := fun op hr => by
  rw [hits_recX _ _ _ (by omega), decide_eq_true_iff] at hr
  have hlow : fieldKk op = low := BitVec.eq_of_toNat_eq (by rw [toNat_fieldKk]; omega)
  rw [build_recX, henc, ← hlow, wordX_eq_of_toNat (by omega)]

theorem catalogLow_faithful : ∀ r ∈ catalogLow, r.faithful := by
  simp only [catalogLow, List.forall_mem_cons]
  exact ⟨recZ_faithful rfl, recZ_faithful rfl, recA_faithful (fun _ => rfl) rfl, recA_faithful (fun _ => rfl) rfl,
    recXB_faithful (fun _ _ => rfl) rfl, recXB_faithful (fun _ _ => rfl) rfl, recXY_faithful (fun _ _ => rfl) rfl,
    recXB_faithful (fun _ _ => rfl) rfl, recXB_faithful (fun _ _ => rfl) rfl, List.forall_mem_nil _⟩

theorem catalogAlu_faithful : ∀ r ∈ catalogAlu, r.faithful := by
  simp only [catalogAlu, List.forall_mem_cons]
  exact ⟨recXY_faithful (fun _ _ => rfl) rfl, recXY_faithful (fun _ _ => rfl) rfl, recXY_faithful (fun _ _ => rfl) rfl,
    recXY_faithful (fun _ _ => rfl) rfl, recXY_faithful (fun _ _ => rfl) rfl, recXY_faithful (fun _ _ => rfl) rfl,
    recXY_faithful (fun _ _ => rfl) rfl, recXY_faithful (fun _ _ => rfl) rfl, recXY_faithful (fun _ _ => rfl) rfl,
    List.forall_mem_nil _⟩

theorem catalogMid_faithful : ∀ r ∈ catalogMid, r.faithful := by
  simp only [catalogMid, List.forall_mem_cons]
  exact ⟨recXY_faithful (fun _ _ => rfl) rfl, recA_faithful (fun _ => rfl) rfl, recA_faithful (fun _ => rfl) rfl,
    recXB_faithful (fun _ _ => rfl) rfl, recXYN_faithful (fun _ _ _ => rfl) rfl, recX_faithful (fun _ => rfl) rfl,
    recX_faithful (fun _ => rfl) rfl, List.forall_mem_nil _⟩

theorem catalogHigh_faithful : ∀ r ∈ catalogHigh, r.faithful := by
  simp only [catalogHigh, List.forall_mem_cons]
  exact ⟨recX_faithful (fun _ => rfl) rfl, recX_faithful (fun _ => rfl) rfl, recX_faithful (fun _ => rfl) rfl,
    recX_faithful (fun _ => rfl) rfl, recX_faithful (fun _ => rfl) rfl, recX_faithful (fun _ => rfl) rfl,
    recX_faithful (fun _ => rfl) rfl, recX_faithful (fun _ => rfl) rfl, recX_faithful (fun _ => rfl) rfl,
    List.forall_mem_nil _⟩

theorem catalog_faithful : ∀ r ∈ catalog, r.faithful := by
  simp only [catalog, List.forall_mem_append]
  exact ⟨catalogLow_faithful, catalogAlu_faithful, catalogMid_faithful, catalogHigh_faithful⟩

theorem encode_of_decode {op : Word} {i : Instr} (h : decode op = some i) : encode i = op := by
  obtain ⟨r, hm, hr, rfl⟩ := firstMatch_some h
  exact catalog_faithful r hm op hr

end Sys2Proof
end


section
/-! SUPPORT. When each group of the catalog matches nothing, and so when no record does (spec/30_encoding.md R98). -/

namespace Sys2Proof

variable {op : Word}

theorem catalogLow_misses : (∀ r ∈ catalogLow, r.hits op = false) ↔
    op.toNat ≠ 0x00E0 ∧ op.toNat ≠ 0x00EE ∧ op.toNat / 4096 ∉ [1, 2, 3, 4] ∧
      (op.toNat / 4096 = 5 → op.toNat % 16 ≠ 0) ∧ op.toNat / 4096 ∉ [6, 7] := by
  simp [catalogLow, hits_recZ, hits_recA, hits_recXB, hits_recXY, and_assoc]

theorem catalogAlu_misses : (∀ r ∈ catalogAlu, r.hits op = false) ↔
    (op.toNat / 4096 = 8 → op.toNat % 16 ∉ [0, 1, 2, 3, 4, 5, 6, 7, 0xE]) := by
  simp [catalogAlu, hits_recXY, imp_and]

theorem catalogMid_misses : (∀ r ∈ catalogMid, r.hits op = false) ↔
    (op.toNat / 4096 = 9 → op.toNat % 16 ≠ 0) ∧ op.toNat / 4096 ∉ [0xA, 0xB, 0xC, 0xD] ∧
      (op.toNat / 4096 = 0xE → op.toNat % 256 ∉ [0x9E, 0xA1]) := by
  simp [catalogMid, hits_recA, hits_recXB, hits_recXY, hits_recXYN, hits_recX, imp_and, and_assoc]

theorem catalogHigh_misses : (∀ r ∈ catalogHigh, r.hits op = false) ↔
    (op.toNat / 4096 = 0xF → op.toNat % 256 ∉ [0x07, 0x0A, 0x15, 0x18, 0x1E, 0x29, 0x33, 0x55, 0x65]) := by
  simp [catalogHigh, hits_recX, imp_and]

theorem decode_eq_none_iff : decode op = none ↔
    (op.toNat ≠ 0x00E0 ∧ op.toNat ≠ 0x00EE ∧ op.toNat / 4096 ∉ [1, 2, 3, 4] ∧
      (op.toNat / 4096 = 5 → op.toNat % 16 ≠ 0) ∧ op.toNat / 4096 ∉ [6, 7]) ∧
    (op.toNat / 4096 = 8 → op.toNat % 16 ∉ [0, 1, 2, 3, 4, 5, 6, 7, 0xE]) ∧
    ((op.toNat / 4096 = 9 → op.toNat % 16 ≠ 0) ∧ op.toNat / 4096 ∉ [0xA, 0xB, 0xC, 0xD] ∧
      (op.toNat / 4096 = 0xE → op.toNat % 256 ∉ [0x9E, 0xA1])) ∧
    (op.toNat / 4096 = 0xF → op.toNat % 256 ∉ [0x07, 0x0A, 0x15, 0x18, 0x1E, 0x29, 0x33, 0x55, 0x65]) := by
  rw [decode, firstMatch_none, catalog]
  simp only [List.forall_mem_append, catalogLow_misses, catalogAlu_misses, catalogMid_misses, catalogHigh_misses]

end Sys2Proof
end

section
/-! SUPPORT. Family 30_encoding.md settled: the round trips, the illegal opcodes, and the catalog's exclusivity. -/

namespace Sys2Proof

/-- Settles O8, one clause per row of the catalog. -/
theorem everyInstructionDecodesFromItsWord : Obligations.EveryInstructionDecodesFromItsWord := decode_encode

/-- Settles O9: the record that matched is faithful. -/
theorem everyDecodedWordIsItsEncoding : Obligations.EveryDecodedWordIsItsEncoding := fun _ _ => encode_of_decode

/-- Settles O10, one case per top nibble. -/
theorem illegalOpcodesAreExactlyListed : Obligations.IllegalOpcodesAreExactlyListed := by
  intro op
  have hne : ∀ w : Word, op ≠ w ↔ op.toNat ≠ w.toNat := fun w => not_congr BitVec.toNat_inj.symm
  have hlow : op.toNat / 4096 = 0 ∨ op.toNat ≠ 0x00E0 ∧ op.toNat ≠ 0x00EE := by omega
  have hlt : op.toNat / 4096 < 16 := by omega
  rw [decode_eq_none_iff, hne, hne]
  generalize op.toNat / 4096 = top at hlt hlow ⊢
  interval_cases top <;> simp at hlow ⊢ <;> omega

/-- Settles O11: the masks and patterns of any two records differ on a bit both masks keep. -/
theorem catalogRecordsMutuallyExclusive : Obligations.CatalogRecordsMutuallyExclusive :=
  length_filter_hits_le_one catalog_pairwise_disjoint

/-- Settles O12: ten fixed words, looked up. -/
theorem sourceOpcodesDecode : Obligations.SourceOpcodesDecode := by
  unfold Obligations.SourceOpcodesDecode
  decide

end Sys2Proof
end

section
/-! SUPPORT. Which fatal condition an instruction raises (spec/60_exceptions.md R271 to R273), and that it completes
when it meets none. -/

namespace Sys2Proof.Machine

variable {s t : State} {i : Instr}

/-- RET on a stack that is not empty completes with the newest entry in `pc` (41 R153). -/
theorem exec_ret_of_sp_eq_succ {n : Nat} (hn : n < 16) (h : s.sp.val = n + 1) :
    exec .ret s = .next (({ s with sp := ⟨n, by omega⟩ } : State).setPc s.stack[n]) := by
  rw [exec_ret, pop_of_sp_eq_succ hn h]

/-- CALL on a stack that is not full completes (41 R152). -/
theorem exec_call_of_sp_lt (nnn : Addr12) (h : s.sp.val < 16) :
    exec (.call nnn) s =
      .next (({ s with stack := s.stack.set s.sp.val s.pc h, sp := ⟨s.sp.val + 1, by omega⟩ } : State).setPc
        (zext16 nnn)) := by
  rcases push_cases s s.pc with ⟨hfull, _⟩ | ⟨_, e⟩
  · omega
  · rw [exec_call, e]

/-- The condition an instruction raises when its handler runs in `s` (60 R271 to R273). -/
def causeOf (i : Instr) (s : State) : Option FaultCause :=
  match i with
  | .call _ => if s.sp.val = 16 then some (.stackOverflow 16) else none
  | .ret => if s.sp.val = 0 then some .stackUnderflow else none
  | .ldBVx _ => if 0xFFE ≤ s.I.toNat then some (.outOfBoundsAccess (max s.I.toNat 0x1000) 0x1000 .write) else none
  | .storeRegs x =>
    if 0x1000 ≤ s.I.toNat + x.toNat then some (.outOfBoundsAccess (max s.I.toNat 0x1000) 0x1000 .write) else none
  | .loadRegs x =>
    if 0x1000 ≤ s.I.toNat + x.toNat then some (.outOfBoundsAccess (max s.I.toNat 0x1000) 0x1000 .read) else none
  | .drw _ _ n =>
    if 1 ≤ n.toNat ∧ 0x1000 ≤ s.I.toNat + n.toNat - 1 then
      some (.outOfBoundsAccess (max s.I.toNat 0x1000) 0x1000 .read)
    else none
  | _ => none

/-- A fetched opcode that decodes raises what its instruction raises. -/
theorem raisedCause_of_decode (hpc : s.pc.toNat + 1 < memSize) (hd : decode s.opcode = some i) :
    raisedCause s = causeOf i (advance s) := by
  have hpc' : ¬ 0xFFF ≤ s.pc.toNat := by simp only [memSize] at hpc; omega
  rw [raisedCause, if_neg hpc', hd]
  cases i <;> rfl

/-- An instruction raises the condition it meets, or meets none and completes with the latch as it was. -/
theorem exec_raise_or_complete (i : Instr) (s : State) :
    (∃ c, causeOf i s = some c ∧ exec i s = raise i c s) ∨
    (causeOf i s = none ∧ ∃ t, exec i s = .next t ∧ t.fault = s.fault) := by
  cases i with
  | ret =>
    rcases Nat.eq_zero_or_eq_succ_pred s.sp.val with h | h
    · exact .inl ⟨_, if_pos h, by rw [exec_ret, pop_of_empty h]⟩
    · exact .inr ⟨if_neg (by omega), _, exec_ret_of_sp_eq_succ (by omega) h, rfl⟩
  | call nnn =>
    rcases Nat.lt_or_ge s.sp.val 16 with h | h
    · exact .inr ⟨if_neg (by omega), _, exec_call_of_sp_lt nnn h, rfl⟩
    · have hfull : s.sp.val = 16 := by omega
      exact .inl ⟨_, if_pos hfull, by rw [exec_call, push_of_full _ hfull]⟩
  | ldBVx x =>
    rcases writeBytes_cases s.mem (effectiveAddr s 0) (bcdDigits (s.reg x)) with ⟨hin, e⟩ | ⟨_, hout, e⟩
    · have hin : effectiveAddr s 0 + 3 ≤ memSize := hin.resolve_left (List.cons_ne_nil _ _)
      exact .inr ⟨if_neg (by simp only [effectiveAddr, memSize] at hin; omega), _, exec_ldBVx_ok e, rfl⟩
    · have hout : memSize < effectiveAddr s 0 + 3 := hout
      exact .inl ⟨_, if_pos (by simp only [effectiveAddr, memSize] at hout; omega), exec_ldBVx_error e⟩
  | storeRegs x =>
    rcases writeBytes_cases s.mem (effectiveAddr s 0) (regsUpTo s x) with ⟨hin, e⟩ | ⟨_, hout, e⟩
    · have hin := hin.resolve_left (regsUpTo_ne_nil s x)
      rw [length_regsUpTo] at hin
      exact .inr ⟨if_neg (by simp only [effectiveAddr, memSize] at hin; omega), _, exec_storeRegs_ok e, rfl⟩
    · rw [length_regsUpTo] at hout
      exact .inl ⟨_, if_pos (by simp only [effectiveAddr, memSize] at hout; omega), exec_storeRegs_error e⟩
  | loadRegs x =>
    rcases readBytes_cases s.mem (effectiveAddr s 0) (x.toNat + 1) with ⟨hin, e⟩ | ⟨_, hout, e⟩
    · exact .inr ⟨if_neg (by simp only [effectiveAddr, memSize] at hin; omega), _, exec_loadRegs_ok e, rfl⟩
    · exact .inl ⟨_, if_pos (by simp only [effectiveAddr, memSize] at hout; omega), exec_loadRegs_error e⟩
  | drw x y n =>
    rcases readBytes_cases s.mem (effectiveAddr s 0) n.toNat with ⟨hin, e⟩ | ⟨hpos, hout, e⟩
    · exact .inr ⟨if_neg (by simp only [effectiveAddr, memSize] at hin; omega), _, exec_drw_ok e, rfl⟩
    · exact .inl ⟨_, if_pos (by simp only [effectiveAddr, memSize] at hout; omega), exec_drw_error e⟩
  | seByte | sneByte | seReg | sneReg | skp | sknp => exact .inr ⟨rfl, _, rfl, by split <;> rfl⟩
  | _ => exact .inr ⟨rfl, _, rfl, rfl⟩

end Sys2Proof.Machine
end

section
/-! SUPPORT. The outcomes of a step (spec/40_execution_cycle.md R121, R122; spec/60_exceptions.md R275): nothing unless
`Running`, one condition latched and nothing else changed, or one instruction that completes. -/

namespace Sys2Proof.Machine

variable {s t : State} {i : Instr}

/-- The latch set with a record, nothing else changed (60 R275). -/
def State.latched (s : State) (r : FaultRecord) : State := { s with fault := some r }

/-- A raise by an instruction of a step takes the advance back (60 R275). -/
theorem raise_advance (i : Instr) (c : FaultCause) (s : State) :
    raise i c (advance s) = .next (s.latched ⟨c, s.pc, some (encode i)⟩) := by
  rw [raise, advance_pc_sub_two]; rfl

/-- A `Running` machine that meets a condition latches it, with its own address and the opcode if it was fetched
(60 R270, R276). -/
theorem step_of_raisedCause {c : FaultCause} (hrun : s.runState = .running) (hc : raisedCause s = some c) :
    step s = .next (s.latched ⟨c, s.pc, if s.pc.toNat < 0xFFF then some s.opcode else none⟩) := by
  rcases step_cases s with ⟨h, _⟩ | ⟨_, hb, e⟩ | ⟨_, hb, hd, e⟩ | ⟨i, _, hb, hd, e⟩
  · exact absurd hrun h
  · have hout : 0xFFF ≤ s.pc.toNat := by simp only [memSize] at hb; omega
    rw [raisedCause, if_pos hout, Option.some.injEq] at hc
    rw [e, if_neg (by omega), ← hc]
    rfl
  · have hin : s.pc.toNat < 0xFFF := by simp only [memSize] at hb; omega
    rw [raisedCause, if_neg (by omega), hd, Option.some.injEq] at hc
    rw [e, if_pos hin, ← hc]
    rfl
  · have hin : s.pc.toNat < 0xFFF := by simp only [memSize] at hb; omega
    rw [raisedCause_of_decode hb hd] at hc
    rcases exec_raise_or_complete i (advance s) with ⟨c', hc', he⟩ | ⟨hnone, _⟩
    · obtain rfl : c' = c := Option.some.inj (hc'.symm.trans hc)
      rw [e, he, raise_advance, if_pos hin, encode_of_decode hd]
    · rw [hnone] at hc; cases hc

/-- A `Running` machine that meets no condition runs the instruction at `pc`, which completes. -/
theorem step_of_no_raisedCause (hrun : s.runState = .running) (hc : raisedCause s = none) :
    ∃ i t, s.pc.toNat + 1 < memSize ∧ decode s.opcode = some i ∧ step s = .next t ∧ exec i (advance s) = .next t ∧
      t.fault = none := by
  have hnofault : s.fault = none := (runState_running.1 hrun).1
  rcases step_cases s with ⟨h, _⟩ | ⟨_, hb, _⟩ | ⟨_, hb, hd, _⟩ | ⟨i, _, hb, hd, e⟩
  · exact absurd hrun h
  · have hout : 0xFFF ≤ s.pc.toNat := by simp only [memSize] at hb; omega
    rw [raisedCause, if_pos hout] at hc; cases hc
  · have hin : ¬ 0xFFF ≤ s.pc.toNat := by simp only [memSize] at hb; omega
    rw [raisedCause, if_neg hin, hd] at hc; cases hc
  · rw [raisedCause_of_decode hb hd] at hc
    rcases exec_raise_or_complete i (advance s) with ⟨c', hc', _⟩ | ⟨_, t, he, hf⟩
    · rw [hc'] at hc; cases hc
    · exact ⟨i, t, hb, hd, e.trans he, he, hf.trans hnofault⟩

/-- Everything a step can do: nothing unless `Running`, one latched condition, or one completed instruction. -/
theorem step_outcome (h : step s = .next t) :
    (s.runState ≠ .running ∧ t = s) ∨
    (s.runState = .running ∧ raisedCause s ≠ none ∧ ∃ r, t = s.latched r) ∨
    (s.runState = .running ∧ raisedCause s = none ∧ t.fault = none ∧
      ∃ i, s.pc.toNat + 1 < memSize ∧ decode s.opcode = some i ∧ exec i (advance s) = .next t) := by
  by_cases hrun : s.runState = .running
  · right
    cases hc : raisedCause s with
    | some c =>
      rw [step_of_raisedCause hrun hc] at h
      exact .inl ⟨hrun, Option.some_ne_none c, _, (Host.Outcome.next.inj h).symm⟩
    | none =>
      obtain ⟨i, u, hb, hd, hs, he, hf⟩ := step_of_no_raisedCause hrun hc
      obtain rfl : u = t := Host.Outcome.next.inj (hs.symm.trans h)
      exact .inr ⟨hrun, rfl, hf, i, hb, hd, he⟩
  · rw [step_of_not_running hrun] at h
    exact .inl ⟨hrun, (Host.Outcome.next.inj h).symm⟩

theorem step_answers_next (s : State) : ∃ t, step s = .next t := by
  by_cases hrun : s.runState = .running
  · cases hc : raisedCause s with
    | some c => exact ⟨_, step_of_raisedCause hrun hc⟩
    | none =>
      obtain ⟨_, t, _, _, hs, _⟩ := step_of_no_raisedCause hrun hc
      exact ⟨t, hs⟩
  · exact ⟨s, step_of_not_running hrun⟩

end Sys2Proof.Machine
end

section
/-! SUPPORT. The registers and the bytes an instruction can change (spec/10_state.md R42, R21, 20 R66), whether it
completes or raises. -/

namespace Sys2Proof.Machine

variable {s t : State} {i : Instr}

/-- A skip changes no register and no byte. -/
theorem skipIf_keepsRegsAndMem {cond : Bool} (h : skipIf cond s = .next t) : RegsKept s t [] ∧ t.mem = s.mem := by
  obtain rfl := Host.Outcome.next.inj h
  cases cond <;> exact ⟨fun _ _ => rfl, rfl⟩

/-- Loading `x + 1` bytes writes no register above `x` (44 R206). -/
theorem loadLow_keepsRegs {x : Reg} {bytes : List Byte} (hlen : bytes.length = x.toNat + 1) :
    RegsKept s (s.loadLow bytes) (writtenRegs (.loadRegs x)) := by
  intro k hk
  rw [reg_loadLow, if_neg]
  intro hlt
  have hmem : k.toNat ∈ List.range (x.toNat + 1) := List.mem_range.2 (hlen ▸ hlt)
  exact hk (List.mem_map.2 ⟨k.toNat, hmem, (BitVec.ofNat_toNat 4 k).trans (BitVec.setWidth_eq k)⟩)

/-- Memory left alone, or one checked write of as many bytes as the instruction stores, from `I` on (20 R66). -/
def StoresFromIndex (i : Instr) (s t : State) : Prop :=
  t.mem = s.mem ∨ ∃ bytes, bytes.length = storedBytes i ∧ writeBytes s.mem (effectiveAddr s 0) bytes = .ok t.mem

/-- A raise changes no register and no byte (60 R275). -/
theorem raise_keepsRegsAndMem {c : FaultCause} {regs : List Reg} (h : raise i c s = .next t) :
    RegsKept s t regs ∧ StoresFromIndex i s t := by
  cases h
  exact ⟨fun _ _ => rfl, .inl rfl⟩

/-- An instruction changes no register but those R42 and R21 give it, and memory by its own bytes only. -/
theorem exec_keepsRegsAndMem (h : exec i s = .next t) : RegsKept s t (writtenRegs i) ∧ StoresFromIndex i s t := by
  cases i with
  | ret =>
    rw [exec_ret] at h
    rcases pop_cases s with ⟨_, e⟩ | ⟨_, _, _, e⟩ <;> rw [e] at h
    · exact raise_keepsRegsAndMem h
    · cases h; exact ⟨fun _ _ => rfl, .inl rfl⟩
  | call nnn =>
    rw [exec_call] at h
    rcases push_cases s s.pc with ⟨_, e⟩ | ⟨_, e⟩ <;> rw [e] at h
    · exact raise_keepsRegsAndMem h
    · cases h; exact ⟨fun _ _ => rfl, .inl rfl⟩
  | ldBVx x =>
    cases e : writeBytes s.mem (effectiveAddr s 0) (bcdDigits (s.reg x)) with
    | ok m => rw [exec_ldBVx_ok e] at h; cases h; exact ⟨fun _ _ => rfl, .inr ⟨_, rfl, e⟩⟩
    | error bad => rw [exec_ldBVx_error e] at h; exact raise_keepsRegsAndMem h
  | storeRegs x =>
    cases e : writeBytes s.mem (effectiveAddr s 0) (regsUpTo s x) with
    | ok m => rw [exec_storeRegs_ok e] at h; cases h; exact ⟨fun _ _ => rfl, .inr ⟨_, length_regsUpTo s x, e⟩⟩
    | error bad => rw [exec_storeRegs_error e] at h; exact raise_keepsRegsAndMem h
  | loadRegs x =>
    rcases readBytes_cases s.mem (effectiveAddr s 0) (x.toNat + 1) with ⟨_, e⟩ | ⟨_, _, e⟩
    · rw [exec_loadRegs_ok e] at h; cases h; exact ⟨loadLow_keepsRegs (by simp), .inl rfl⟩
    · rw [exec_loadRegs_error e] at h; exact raise_keepsRegsAndMem h
  | drw x y n =>
    cases e : readBytes s.mem (effectiveAddr s 0) n.toNat with
    | ok rows => rw [exec_drw_ok e] at h; cases h; exact ⟨setReg_keepsRegs s VF _, .inl rfl⟩
    | error bad => rw [exec_drw_error e] at h; exact raise_keepsRegsAndMem h
  | seByte | sneByte | seReg | sneReg | skp | sknp => exact (skipIf_keepsRegsAndMem h).imp_right .inl
  | ldByte x | addByte x | ldReg x | orReg x | andReg x | xorReg x | ldVxDT x =>
    cases h; exact ⟨setReg_keepsRegs s x _, .inl rfl⟩
  | rnd x => cases h; exact ⟨setReg_keepsRegs s.countDraw x _, .inl rfl⟩
  | addReg x | subReg x | subnReg x | shr x | shl x => cases h; exact ⟨setFlagThenReg_keepsRegs s _ x _, .inl rfl⟩
  | cls | jp | jpV0 | ldI | addIVx | ldFVx | ldVxK | ldDTVx | ldSTVx => cases h; exact ⟨fun _ _ => rfl, .inl rfl⟩

/-- An instruction keeps the canonical form. -/
theorem exec_mem_wf (hm : s.mem.wf) (h : exec i s = .next t) : t.mem.wf := by
  rcases (exec_keepsRegsAndMem h).2 with e | ⟨_, _, e⟩
  · exact e ▸ hm
  · exact writeBytes_wf hm e

/-- An instruction changes no byte but those it stores from `I` on. -/
theorem exec_keepsBytesOutside (hm : s.mem.wf) (h : exec i s = .next t) :
    BytesKeptOutside s t (effectiveAddr s 0) (storedBytes i) := by
  rcases (exec_keepsRegsAndMem h).2 with e | ⟨bytes, hlen, e⟩
  · intro a _; rw [e]
  · rcases writeBytes_cases s.mem (effectiveAddr s 0) bytes with ⟨rfl | hin, _⟩ | ⟨_, _, e'⟩
    · intro a _; rw [← Except.ok.inj e]
    · obtain ⟨m, e', _, hkept⟩ := writeBytes_ok hm hin
      obtain rfl : m = t.mem := Except.ok.inj (e'.symm.trans e)
      exact hlen ▸ hkept
    · rw [e'] at e; cases e

/-- Under the mode that keeps it, the block transfers leave `I` as it was (44 R204). -/
theorem exec_transfer_keepsIndex {x : Reg} (hmode : s.cfg.indexMode = .unchanged)
    (hi : i = .storeRegs x ∨ i = .loadRegs x) (h : exec i s = .next t) : t.I = s.I := by
  rcases hi with rfl | rfl
  · cases e : writeBytes s.mem (effectiveAddr s 0) (regsUpTo s x) with
    | ok m => rw [exec_storeRegs_ok e] at h; cases h; exact (indexAfter_spec _ _ x).1 hmode
    | error bad => rw [exec_storeRegs_error e] at h; cases h; rfl
  · cases e : readBytes s.mem (effectiveAddr s 0) (x.toNat + 1) with
    | ok bytes => rw [exec_loadRegs_ok e] at h; cases h; exact (indexAfter_spec _ _ x).1 hmode
    | error bad => rw [exec_loadRegs_error e] at h; cases h; rfl

/-- An instruction that leaves the latch empty changes its columns of R42 only: a raise would have set the latch. -/
theorem exec_keepsParts_of_clean (h : exec i s = .next t) (hclean : t.fault = none) :
    PartsKept s t (writtenParts i) := by
  rcases exec_keepsParts_or_raise h with hkept | ⟨c, e⟩
  · exact hkept
  · cases e.symm.trans h; cases hclean

end Sys2Proof.Machine
end

section
/-! SUPPORT. The invariant of R38: where an instruction can leave `pc` and the live return addresses
(spec/41_control_flow.md R161), and the host's transitions one by one. -/

namespace Sys2Proof.Machine

variable {s t : State} {i : Instr}

/-- Every live return address is at most 0x1000 (41 R161). -/
def State.returnsBelow (s : State) : Prop := ∀ j, (h : j < 16) → j < s.sp.val → (s.stack[j]'h).toNat ≤ 0x1000

theorem jumpV0Target_toNat (s : State) (nnn : Addr12) :
    (jumpV0Target s nnn).toNat = nnn.toNat + (s.reg 0#4).toNat := by
  have := nnn.isLt
  have := (s.reg 0#4).isLt
  simp only [jumpV0Target, BitVec.toNat_ofNat]
  omega

/-- A skip leaves `pc` at most two further on. -/
theorem skipIf_pc_le {cond : Bool} (h : skipIf cond s = .next t) : t.pc.toNat ≤ s.pc.toNat + 2 := by
  obtain rfl := Host.Outcome.next.inj h
  cases cond
  · exact Nat.le_add_right _ _
  · exact Nat.mod_le _ _

/-- Where an instruction that completes leaves `pc` (10 R38 (d)): jump targets have 12 bits, `JP V0` adds a byte, a
return goes to a live entry. -/
theorem exec_pc_le (hpc : s.pc.toNat ≤ 0x1000) (hret : s.returnsBelow) (h : exec i s = .next t)
    (hclean : t.fault = none) : t.pc.toNat ≤ 0x10FE := by
  cases i with
  | jp nnn =>
    cases h
    rw [State.setPc_pc, zext16_toNat]; omega
  | jpV0 nnn =>
    cases h
    rw [State.setPc_pc, jumpV0Target_toNat]; omega
  | call nnn =>
    rw [exec_call] at h
    rcases push_cases s s.pc with ⟨_, e⟩ | ⟨_, e⟩ <;> rw [e] at h <;> cases h
    · cases hclean
    · rw [State.setPc_pc, zext16_toNat]; omega
  | ret =>
    rw [exec_ret] at h
    rcases pop_cases s with ⟨_, e⟩ | ⟨hlt, _, hne, e⟩ <;> rw [e] at h <;> cases h
    · cases hclean
    · have := hret _ hlt (by omega)
      rw [State.setPc_pc]; omega
  | seByte | sneByte | seReg | sneReg | skp | sknp =>
    have := skipIf_pc_le h
    omega
  | _ =>
    have hsame : t.pc = s.pc := exec_keepsParts_of_clean h hclean .pc (by simp [writtenParts])
    rw [hsame]; omega

/-- `CALL` pushes the `pc` it runs with, `RET` drops an entry, no other instruction touches the stack (10 R42). -/
theorem exec_returnsBelow (hpc : s.pc.toNat ≤ 0x1000) (hret : s.returnsBelow) (h : exec i s = .next t)
    (hclean : t.fault = none) : t.returnsBelow := by
  cases i with
  | call nnn =>
    rw [exec_call] at h
    rcases push_cases s s.pc with ⟨_, e⟩ | ⟨hlt, e⟩ <;> rw [e] at h <;> cases h
    · cases hclean
    · intro j hj hsp
      simp only [State.setPc_stack, State.setPc_sp, Vector.getElem_set] at hsp ⊢
      split
      · exact hpc
      · exact hret j hj (by omega)
  | ret =>
    rw [exec_ret] at h
    rcases pop_cases s with ⟨_, e⟩ | ⟨_, _, _, e⟩ <;> rw [e] at h <;> cases h
    · cases hclean
    · intro j hj hsp
      simp only [State.setPc_sp] at hsp
      exact hret j hj (by omega)
  | _ =>
    obtain ⟨hsp, hstack⟩ : t.sp = s.sp ∧ t.stack = s.stack :=
      exec_keepsParts_of_clean h hclean .stack (by simp [writtenParts])
    unfold State.returnsBelow
    rw [hsp, hstack]
    exact hret

/-- The instruction that arms a wait pauses the machine with it; from no wait no other leaves one (47 R250). -/
theorem exec_waitPaused (hwait : s.waitKey = none) (h : exec i s = .next t) (hclean : t.fault = none)
    (hw : t.waitKey.isSome = true) : t.paused = true := by
  cases i with
  | ldVxK x => cases h; rfl
  | _ =>
    obtain ⟨_, hsame⟩ : t.paused = s.paused ∧ t.waitKey = s.waitKey :=
      exec_keepsParts_of_clean h hclean .run (by simp [writtenParts])
    rw [hsame, hwait] at hw; cases hw

/-- A latched condition keeps the invariant of a machine that waits for no key. -/
theorem latched_inv (hi : s.Inv) (hwait : s.waitKey = none) (r : FaultRecord) : (s.latched r).Inv :=
  ⟨hi.memory, hi.pcRange, hi.returnRange, hi.waitPaused, fun _ => hwait⟩

theorem step_inv (hi : s.Inv) (h : step s = .next t) : t.Inv := by
  rcases step_outcome h with ⟨_, rfl⟩ | ⟨hrun, _, r, rfl⟩ | ⟨hrun, _, hclean, i, hb, _, he⟩
  · exact hi
  · exact latched_inv hi (runState_running.1 hrun).2.1 r
  · obtain ⟨_, hwait, _⟩ := runState_running.1 hrun
    have hpc : (advance s).pc.toNat ≤ 0x1000 := by
      simp only [memSize] at hb
      simp only [advance_pc, BitVec.toNat_ofNat]
      omega
    have hmem : (advance s).mem.wf := hi.memory
    have hret : (advance s).returnsBelow := hi.returnRange
    exact ⟨exec_mem_wf hmem he, exec_pc_le hpc hret he hclean, exec_returnsBelow hpc hret he hclean,
      exec_waitPaused (s := advance s) hwait he hclean, fun hf => by rw [hclean] at hf; cases hf⟩

theorem reset_inv : State.reset.Inv :=
  ⟨Memory.nil_wf, by decide, fun j _ hj => absurd hj (Nat.not_lt_zero j), fun _ => rfl, fun _ => rfl⟩

theorem resetMachine_inv (s : State) : (resetMachine s).Inv :=
  ⟨(resetMachine_mem s).1, (by decide : loadAddr ≤ 0x10FE), fun j _ hj => absurd hj (Nat.not_lt_zero j), fun _ => rfl,
    fun _ => rfl⟩

theorem romFits_iff {bytes : List Byte} : romFits bytes = true ↔ bytes.length ≤ 3584 := by
  simp only [romFits, decide_eq_true_iff, loadAddr, memSize]; omega

/-- A load that fits is a reset with the image placed and the pause off (70 R302). -/
theorem loadRom_of_fits {bytes : List Byte} (h : bytes.length ≤ 3584) (s : State) :
    loadRom bytes s =
      ({ resetMachine s with mem := placeBytes (resetMachine s).mem loadAddr bytes, paused := false }, []) :=
  if_pos (romFits_iff.2 h)

/-- A load that does not fit is reported and changes nothing (60 R280). -/
theorem loadRom_of_not_fits {bytes : List Byte} (h : 3584 < bytes.length) (s : State) :
    loadRom bytes s = (s, [.romTooLarge bytes.length loadAddr memSize]) :=
  if_neg fun hfits => by have := romFits_iff.1 hfits; omega

theorem hostResume_cases (s : State) :
    (∃ x, s.waitKey = some x ∧ hostResume s = s) ∨ (s.waitKey = none ∧ hostResume s = { s with paused := false }) := by
  cases hw : s.waitKey with
  | none => exact .inr ⟨rfl, by simp [hostResume, hw]⟩
  | some x => exact .inl ⟨x, rfl, hostResume_of_waitKey hw⟩

theorem keyRelease_inv (k : Nibble) (hi : s.Inv) : (keyRelease k s).Inv := by
  rcases keyRelease_cases k s with e | ⟨r, _, _, e⟩ <;> rw [e]
  · exact ⟨hi.memory, hi.pcRange, hi.returnRange, hi.waitPaused, hi.faultNoWait⟩
  · exact ⟨hi.memory, hi.pcRange, hi.returnRange, fun hw => absurd hw Bool.false_ne_true, fun _ => rfl⟩

theorem hostResume_inv (hi : s.Inv) : (hostResume s).Inv := by
  rcases hostResume_cases s with ⟨_, _, e⟩ | ⟨hw, e⟩ <;> rw [e]
  · exact hi
  · exact ⟨hi.memory, hi.pcRange, hi.returnRange, fun h => by simp [hw] at h, fun _ => hw⟩

theorem loadRom_inv (bytes : List Byte) (hi : s.Inv) : (loadRom bytes s).1.Inv := by
  rcases Nat.lt_or_ge 3584 bytes.length with h | h
  · rw [loadRom_of_not_fits h]; exact hi
  · rw [loadRom_of_fits h]
    have hr := resetMachine_inv s
    have hm := (placeBytes_spec loadAddr bytes hr.memory (by simp only [loadAddr, memSize]; omega)).1
    exact ⟨hm, hr.pcRange, hr.returnRange, fun hw => absurd hw Bool.false_ne_true, fun _ => rfl⟩

theorem applyEvent_inv (e : HostEvent) (hi : s.Inv) : (applyEvent e s).1.Inv := by
  cases e with
  | keyPress k => exact ⟨hi.memory, hi.pcRange, hi.returnRange, hi.waitPaused, hi.faultNoWait⟩
  | keyRelease k => exact keyRelease_inv k hi
  | hostPause => exact ⟨hi.memory, hi.pcRange, hi.returnRange, fun _ => rfl, hi.faultNoWait⟩
  | hostResume => exact hostResume_inv hi
  | reset => exact resetMachine_inv s
  | loadRom bytes => exact loadRom_inv bytes hi

theorem tickPart_inv (hi : s.Inv) : (tickPart s).1.Inv := by
  rcases tickPart_cases s with e | e <;> rw [e]
  · exact hi
  · exact ⟨hi.memory, hi.pcRange, hi.returnRange, hi.waitPaused, hi.faultNoWait⟩

/-- What a slot answers, by its kind. -/
theorem runSlot_cases {slot : Slot} {out : List Notification} (h : runSlot slot s = .next (t, out)) :
    (slot = .step ∧ step s = .next t ∧ out = fatalRaised s t) ∨ (slot = .tickPart ∧ tickPart s = (t, out)) ∨
    (∃ e, slot = .event e ∧ applyEvent e s = (t, out)) := by
  cases slot with
  | step =>
    obtain ⟨u, hu⟩ := step_answers_next s
    rw [runSlot, hu] at h
    cases h
    exact .inl ⟨rfl, hu, rfl⟩
  | tickPart => exact .inr (.inl ⟨rfl, Host.Outcome.next.inj h⟩)
  | event e => exact .inr (.inr ⟨e, rfl, Host.Outcome.next.inj h⟩)

theorem runSlot_inv {slot : Slot} {out : List Notification} (hi : s.Inv) (h : runSlot slot s = .next (t, out)) :
    t.Inv := by
  rcases runSlot_cases h with ⟨_, e, _⟩ | ⟨_, e⟩ | ⟨ev, _, e⟩
  · exact step_inv hi e
  · simpa [e] using tickPart_inv hi
  · simpa [e] using applyEvent_inv ev hi

end Sys2Proof.Machine
end

section
/-! SUPPORT. Family 60_exceptions.md settled: every step answers a state, raises exactly the listed conditions, and
precisely. -/

namespace Sys2Proof.Machine

/-- Settles O17: a step has one of three outcomes, each a next state. -/
theorem stepAlwaysAnswersNext : Obligations.StepAlwaysAnswersNext := step_answers_next

/-- Settles O18, by whether the state at the start of the step meets a condition. -/
theorem stepRaisesExactlyListedConditions : Obligations.StepRaisesExactlyListedConditions := by
  intro s hrun
  cases hc : raisedCause s with
  | some c => exact ⟨_, step_of_raisedCause hrun hc, rfl⟩
  | none =>
    obtain ⟨_, t, _, _, hs, _, hf⟩ := step_of_no_raisedCause hrun hc
    exact ⟨t, hs, hf⟩

/-- Settles O19: of the three outcomes of a step only the latched condition changes the latch. -/
theorem raisingStepChangesOnlyLatch : Obligations.RaisingStepChangesOnlyLatch := by
  intro s t h hne
  rcases step_outcome h with ⟨_, rfl⟩ | ⟨hrun, _, r, rfl⟩ | ⟨hrun, _, hf, _⟩
  · exact absurd rfl hne
  · exact ⟨(runState_running.1 hrun).1, rfl⟩
  · exact absurd (hf.trans (runState_running.1 hrun).1.symm) hne

end Sys2Proof.Machine
end

section
/-! SUPPORT. Family 10_state.md settled: the columns of R42, and the invariant of R38 after reset, a step and a
schedule. -/

namespace Sys2Proof.Machine

/-- Settles O50: parts, registers and bytes each by its own rule of the access table. -/
theorem instructionsWriteOnlyTheirColumns : Obligations.InstructionsWriteOnlyTheirColumns := fun _ _ _ hm _ h hclean =>
  ⟨exec_keepsParts_of_clean h hclean, (exec_keepsRegsAndMem h).1, exec_keepsBytesOutside hm h,
    fun _ hi hmode => exec_transfer_keepsIndex hmode hi h⟩

/-- Settles O20: nothing is listed, pushed, awaited or latched. -/
theorem resetMeetsInvariant : Obligations.ResetMeetsInvariant := reset_inv

/-- Settles O21, by the outcomes of a step. -/
theorem stepKeepsInvariant : Obligations.StepKeepsInvariant := fun _ _ => step_inv

/-- Settles O22, by induction over the schedule with one rule per slot. -/
theorem scheduleKeepsInvariant : Obligations.ScheduleKeepsInvariant := fun slots s t out hi h =>
  runSlots_induction (P := fun s t => s.Inv → t.Inv) (fun _ => id) slots
    (fun _ _ _ _ _ _ e hrest hi => hrest (runSlot_inv hi e)) s t out h hi

end Sys2Proof.Machine
end

section
/-! SUPPORT. Memory through its bounds check: what canonical memories read at and above `MEM_SIZE`, the fetch by its
address, and the reset and load (spec/20_memory.md R61 to R63; spec/70_reset_and_hazards.md R301, R302). -/

namespace Sys2Proof.Machine

variable {s : State} {m : Memory}

/-- A canonical memory lists nothing from `MEM_SIZE` on. -/
theorem Memory.byteAt_of_ge (hm : m.wf) {a : Nat} (ha : memSize ≤ a) : m.byteAt a = Memory.resetByte a := by
  induction m with
  | nil => rfl
  | cons c m ih =>
    have hc : c.1 < memSize := (hm.2 c (by simp)).1
    rw [Memory.byteAt, if_neg (by omega)]
    exact ih (Memory.wf_tail hm).1

/-- Two canonical memories that answer every checked read alike are the same (20 R61). -/
theorem Memory.ext_memRead {n : Memory} (hm : m.wf) (hn : n.wf) (h : ∀ a, memRead m a = memRead n a) : m = n := by
  refine Memory.ext_byteAt hm hn fun a => ?_
  rcases Nat.lt_or_ge a memSize with ha | ha
  · have := h a
    rw [memRead_ok ha, memRead_ok ha] at this
    exact Except.ok.inj this
  · rw [Memory.byteAt_of_ge hm ha, Memory.byteAt_of_ge hn ha]

/-- A fetch whose two addresses lie in memory (20 R63). -/
theorem fetch16_ok {a : Nat} (h : a + 1 < memSize) :
    fetch16 m a = .ok (bigEndian (m.byteAt a) (m.byteAt (a + 1))) := by
  rcases fetch16_cases m a with ⟨_, e⟩ | ⟨hout, _⟩
  · exact e
  · omega

/-- A fetch that leaves memory stops at the lowest out-of-range address (20 R63, R72). -/
theorem fetch16_error {a : Nat} (h : memSize ≤ a + 1) : fetch16 m a = .error (max a memSize) := by
  rcases fetch16_cases m a with ⟨hin, _⟩ | ⟨_, e⟩
  · omega
  · exact e

/-- Registers that are all zero read as zero. -/
theorem reg_of_V_replicate (h : s.V = Vector.replicate 16 0#8) (x : Reg) : s.reg x = 0#8 := by
  simp [State.reg, h]

/-- An unlisted address reads as the default font, which stands at address 0 (20 R68). -/
theorem Memory.resetByte_eq_getD (a : Nat) : Memory.resetByte a = fontData.getD a 0#8 := by
  rw [Memory.resetByte, if_neg (Nat.not_lt_zero a), Nat.sub_zero]

end Sys2Proof.Machine
end

section
/-! SUPPORT. Family 20_memory.md settled: checked accesses, canonical memories, the fetch, and stores into code. -/

namespace Sys2Proof.Machine

/-- Settles O4: both accesses by their bounds check, the contents by read after write. -/
theorem memoryReadAfterWrite : Obligations.MemoryReadAfterWrite := by
  intro m a v hm
  refine ⟨fun ha => ⟨_, memWrite_ok v ha, ?_, fun b hb => memRead_congr ?_⟩,
    fun ha => ⟨memWrite_error v ha, memRead_error ha⟩⟩
  · rw [memRead_ok ha, Memory.byteAt_store a v hm, if_pos rfl]
  · rw [Memory.byteAt_store a v hm, if_neg hb]

/-- Settles O5: the reads fix the contents, and the contents fix a canonical memory. -/
theorem equalReadsAreEqualMemories : Obligations.EqualReadsAreEqualMemories := fun _ _ => Memory.ext_memRead

/-- Settles O6, by where the address lies. -/
theorem fetchIsBigEndianAndBounded : Obligations.FetchIsBigEndianAndBounded := by
  intro m a
  refine ⟨fun h => ?_, fun h => ?_, fun h => ?_⟩
  · have hin : a + 1 < memSize := by simp only [memSize]; omega
    exact ⟨_, _, _, fetch16_ok hin, memRead_ok (by omega), memRead_ok hin, toNat_bigEndian _ _⟩
  · subst h; exact fetch16_error (by decide)
  · rw [fetch16_error (by simp only [memSize]; omega), Nat.max_eq_left h]

/-- Settles O7: the stored bytes read back by O34, and a fetch composes two neighbours of them. -/
theorem storeIntoCodeIsFetchedNext : Obligations.StoreIntoCodeIsFetchedNext := by
  intro x j s t hm hj hin h
  obtain ⟨_, hstore, _⟩ := blockStoreWritesRegistersToMemory x s _ hm rfl
  obtain ⟨t', h', hread, _⟩ := hstore hin
  obtain rfl : t' = t := Host.Outcome.next.inj (h'.symm.trans h)
  have hj' : (BitVec.ofNat 4 (j.toNat + 1)).toNat = j.toNat + 1 := by
    have := x.isLt
    rw [BitVec.toNat_ofNat]; omega
  have hfit : effectiveAddr s j.toNat + 1 < memSize := by simp only [effectiveAddr, memSize]; omega
  have hhi := hread j (Nat.le_of_lt hj)
  have hlo := hread (BitVec.ofNat 4 (j.toNat + 1)) (by omega)
  rw [hj'] at hlo
  have ehi : t'.mem.byteAt (effectiveAddr s j.toNat) = s.reg j :=
    Except.ok.inj ((memRead_ok (by omega)).symm.trans hhi)
  have elo : t'.mem.byteAt (effectiveAddr s j.toNat + 1) = s.reg (BitVec.ofNat 4 (j.toNat + 1)) :=
    Except.ok.inj ((memRead_ok hfit).symm.trans hlo)
  exact ⟨_, fetch16_ok hfit, by rw [toNat_bigEndian, ehi, elo]⟩

end Sys2Proof.Machine
end

section
/-! SUPPORT. Family 70_reset_and_hazards.md settled: power-on, Reset and LoadROM. -/

namespace Sys2Proof.Machine

/-- Settles O1: the fields are literals; memory lists nothing, so it reads as the default font and zeros. -/
theorem powerOnStateHoldsResetValues : Obligations.PowerOnStateHoldsResetValues := by
  refine ⟨rfl, rfl, rfl, rfl, rfl, rfl, reg_of_V_replicate rfl, rfl, rfl, rfl, pixel_blankGrid, rfl, rfl,
    fun k h => Vector.getElem_replicate h, rfl, fun a ha => ?_, fun a ha ha' => ?_⟩
  · exact (memRead_ok (by simp only [memSize]; omega)).trans (congrArg _ (Memory.resetByte_eq_getD a))
  · exact (memRead_ok ha').trans (congrArg _ (Memory.resetByte_of_le ha))

/-- Settles O2: the fields are literals; memory is the font parameter and zeros. -/
theorem resetEventReinitialisesMachine : Obligations.ResetEventReinitialisesMachine := by
  intro s
  obtain ⟨_, hbyte⟩ := resetMachine_mem s
  refine ⟨_, rfl, rfl, rfl, rfl, rfl, rfl, rfl, reg_of_V_replicate rfl, rfl, rfl, rfl, pixel_blankGrid, rfl, rfl,
    fun a ha => ?_, fun a ha ha' => ?_, rfl, rfl⟩
  · rw [memRead_ok (by simp only [memSize]; omega), hbyte, dif_pos ha]
  · rw [memRead_ok ha', hbyte, dif_neg (by simp only [fontSize]; omega)]

/-- Settles O3: a load that fits places its bytes on the memory of the reset. -/
theorem loadRomPlacesImageOrRejects : Obligations.LoadRomPlacesImageOrRejects := by
  intro bytes s
  refine ⟨fun h => ?_, fun h => loadRom_of_not_fits h s⟩
  have hfit : loadAddr + bytes.length ≤ memSize := by simp only [loadAddr, memSize]; omega
  obtain ⟨_, hbyte⟩ := placeBytes_spec loadAddr bytes (resetMachine_mem s).1 hfit
  refine ⟨_, loadRom_of_fits h s, rfl, rfl, fun j hj => ?_, fun a ha => ?_, fun _ _ => rfl, by simp [partsKept_iff]⟩
  · rw [memRead_ok (by simp only [memSize]; omega), hbyte, if_pos (by simp only [loadAddr]; omega)]
    simp [hj]
  · exact memRead_congr ((hbyte a).trans (if_neg (by simp only [loadAddr]; omega)))

end Sys2Proof.Machine
end

section
/-! SUPPORT. The step by the bytes at `pc`, and the host's placed word (spec/40_execution_cycle.md R122; the model's own
`withFetchWord`). -/

namespace Sys2Proof.Machine

variable {s : State} {i : Instr}

/-- A `Running` machine at a fetchable `pc` runs the instruction its opcode decodes to (40 R122). -/
theorem step_of_decode (hrun : s.runState = .running) (hpc : s.pc.toNat + 1 < memSize) (hd : decode s.opcode = some i) :
    step s = exec i (advance s) := by
  rcases step_cases s with ⟨h, _⟩ | ⟨_, h, _⟩ | ⟨_, _, h, _⟩ | ⟨i', _, _, h, e⟩
  · exact absurd hrun h
  · omega
  · rw [hd] at h; cases h
  · obtain rfl : i = i' := Option.some.inj (hd.symm.trans h)
    exact e

theorem lt_and_byteAt_of_memRead_ok {m : Memory} {a : Nat} {v : Byte} (h : memRead m a = .ok v) :
    a < memSize ∧ m.byteAt a = v := by
  unfold memRead at h
  split at h <;> rename_i ha
  · exact ⟨ha, Except.ok.inj h⟩
  · cases h

/-- The host's question about a table word is the decoder's answer to its opcode (20 R64). -/
theorem decodeTableWord_eq (w : Nat) : decodeTableWord 16 w = decode (BitVec.ofNat 16 (w % 2 ^ 16)) := by
  simp only [decodeTableWord, decodeBytes, bigEndian_bytes]
  cases decode (BitVec.ofNat 16 (w % 2 ^ 16)) <;> rfl

/-- Where `pc` can be fetched from, the placed word is the opcode there, and every other byte is as before (20 R64). -/
theorem withFetchWord_spec (w : Nat) (hm : s.mem.wf) (hpc : s.pc.toNat + 1 < memSize) :
    (s.withFetchWord 16 w).opcode = BitVec.ofNat 16 (w % 2 ^ 16) ∧
    BytesKeptOutside s (s.withFetchWord 16 w) s.pc.toNat 2 := by
  obtain ⟨_, hbyte⟩ := placeBytes_spec s.pc.toNat
    [highByte (BitVec.ofNat 16 (w % 2 ^ 16)), lowByte (BitVec.ofNat 16 (w % 2 ^ 16))] hm hpc
  have hmem : (s.withFetchWord 16 w).mem = placeBytes s.mem s.pc.toNat
    [highByte (BitVec.ofNat 16 (w % 2 ^ 16)), lowByte (BitVec.ofNat 16 (w % 2 ^ 16))] := if_pos hpc
  have hpc' : (s.withFetchWord 16 w).pc = s.pc := rfl
  constructor
  · rw [State.opcode, hpc', hmem, hbyte, hbyte, if_pos (by simp), if_pos (by simp), Nat.sub_self,
      Nat.add_sub_cancel_left]
    exact bigEndian_bytes _
  · intro a ha
    rw [hmem]
    exact memRead_congr ((hbyte a).trans (if_neg (by simp only [List.length_cons, List.length_nil]; omega)))

end Sys2Proof.Machine
end

section
/-! SUPPORT. Family 40_execution_cycle.md settled: the step by its bytes, its two conditions before an instruction, and
the placed word. -/

namespace Sys2Proof.Machine

/-- Settles O13: two checked reads at `pc` are the fetch. -/
theorem stepRunsDecodedInstruction : Obligations.StepRunsDecodedInstruction := by
  intro s i hi lo hrun hhi hlo hd
  obtain ⟨_, ehi⟩ := lt_and_byteAt_of_memRead_ok hhi
  obtain ⟨hpc, elo⟩ := lt_and_byteAt_of_memRead_ok hlo
  exact step_of_decode hrun hpc (by rw [State.opcode, ehi, elo]; exact hd)

/-- Settles O15, by what the next action is. -/
theorem fetchAndDecodeFaultsLeaveStateAsBefore : Obligations.FetchAndDecodeFaultsLeaveStateAsBefore := by
  intro s hrun
  refine ⟨fun hpc => ?_, fun op hop hd => ?_⟩
  · have hc : raisedCause s = some (.outOfBoundsAccess (max s.pc.toNat 0x1000) 0x1000 .read) := if_pos hpc
    rw [step_of_raisedCause hrun hc, if_neg (by omega)]; rfl
  · rcases fetch16_cases s.mem s.pc.toNat with ⟨hin, e⟩ | ⟨_, e⟩
    · obtain rfl : s.opcode = op := Except.ok.inj (e.symm.trans hop)
      have hpc : s.pc.toNat < 0xFFF := by simp only [memSize] at hin; omega
      have hc : raisedCause s = some .unknownOpcode := by rw [raisedCause, if_neg (by omega), hd]
      rw [step_of_raisedCause hrun hc, if_pos hpc]; rfl
    · rw [e] at hop; cases hop

/-- Settles O16: the placed word is the opcode at `pc`, and the machine is `Running`. -/
theorem placedWordRunsNext : Obligations.PlacedWordRunsNext := by
  intro s w i hm hpc hd
  have hin : s.pc.toNat + 1 < memSize := by simp only [memSize]; omega
  obtain ⟨hop, hkept⟩ := withFetchWord_spec w hm hin
  have hd' : decode (s.withFetchWord 16 w).opcode = some i := by rw [hop, ← decodeTableWord_eq, hd]
  exact ⟨step_of_decode (runState_running.2 ⟨rfl, rfl, rfl⟩) hin hd', fun _ _ => rfl,
    by simp [partsKept_iff, State.withFetchWord, placeOpcode], hkept⟩

end Sys2Proof.Machine
end

section
/-! SUPPORT. SHL in arithmetic, and what the writes of `pc` and of the timers keep (spec/43_shift.md R192;
spec/41_control_flow.md R150). -/

namespace Sys2Proof.Machine

variable (s : State)

/-- The bit shifted out says whether the operand is at least 128 (43 R192). -/
theorem shlFlag_eq_ite (src : Byte) : shlFlag src = if 128 ≤ src.toNat then 0x01#8 else 0x00#8 := by
  have bit7 : src.getLsbD 7 = decide (128 ≤ src.toNat) := src.msb_eq_getLsbD_last.symm.trans (BitVec.msb_eq_decide src)
  rw [shlFlag, bit7, flagByte_decide]

theorem shlResult_toNat (src : Byte) : (shlResult src).toNat = src.toNat * 2 % 256 := BitVec.toNat_ofNat _ _

theorem indexPlusReg_toNat (i0 : Word) (vx : Byte) : (indexPlusReg i0 vx).toNat = (i0.toNat + vx.toNat) % 65536 :=
  BitVec.toNat_ofNat _ _

/-- An instruction that is one write of `pc` has no other effect. -/
theorem exec_writesPc {i : Instr} {v : Word} (h : exec i s = .next (s.setPc v)) :
    ∃ t, exec i s = .next t ∧ t.pc = v ∧ RegsKept s t [] ∧ PartsKept s t [.pc] ∧ BytesKept s t :=
  ⟨_, h, rfl, fun _ _ => rfl, by simp [partsKept_iff], fun _ => rfl⟩

/-- A skip whose Boolean decides `p`. -/
theorem skipIf_eq_ite {cond : Bool} {p : Prop} [Decidable p] (h : cond = true ↔ p) :
    skipIf cond s = .next (if p then advance s else s) := by
  rw [skipIf, if_congr h rfl rfl]

/-- A symbol of at most 15 is pressed when its key is down (41 R159). -/
theorem keyPressed_of_lt {k : Byte} (h : k.toNat < 16) : keyPressed s k = s.keys[k.toNat] := dif_pos h

/-- A symbol above 15 is not pressed (D20). -/
theorem keyPressed_of_ge {k : Byte} (h : 16 ≤ k.toNat) : keyPressed s k = false := dif_neg (by omega)

end Sys2Proof.Machine
end

section
/-! SUPPORT. Families 41 to 47 settled, the instructions one by one: loads and ALU, shifts, index, random, display
clear, control flow, timers. -/

namespace Sys2Proof.Machine

/-- Settles O24: the effect is one register write. -/
theorem immediateAddWrapsWithoutFlag : Obligations.ImmediateAddWrapsWithoutFlag := by
  intro x kk s
  obtain ⟨t, hexec, hsum, hkept⟩ := writesRegOnly_of_exec_eq_setReg s (i := .addByte x kk) rfl
  exact ⟨t, hexec, hsum ▸ addResult_toNat _ _, hkept⟩

/-- Settles O25: each of the four is one register write. -/
theorem copyAndBitwiseWriteOnlyVx : Obligations.CopyAndBitwiseWriteOnlyVx := fun _ _ s =>
  ⟨writesRegOnly_of_exec_eq_setReg s rfl, writesRegOnly_of_exec_eq_setReg s rfl, writesRegOnly_of_exec_eq_setReg s rfl,
    writesRegOnly_of_exec_eq_setReg s rfl⟩

/-- Settles O28: flag and difference are written by `setFlagThenReg`, with the operands exchanged. -/
theorem subnWritesNotBorrowThenDifference : Obligations.SubnWritesNotBorrowThenDifference := by
  intro x y s
  obtain ⟨t, hexec, hdiff, hflag, hkept⟩ := exec_writesFlagThenReg s (i := .subnReg x y) rfl
  exact ⟨t, hexec, hdiff ▸ subResult_toNat _ _, fun hx => (hflag hx).trans (flagByte_decide _), hkept⟩

/-- Settles O30: flag and double are written by `setFlagThenReg`, both from the operand the shift mode names. -/
theorem shiftLeftWritesHighBitThenDouble : Obligations.ShiftLeftWritesHighBitThenDouble := by
  intro x y s src hsrc
  obtain rfl : shiftOperand x y s = src := (shiftOperand_eq_ite x y s).trans hsrc.symm
  obtain ⟨t, hexec, hdouble, hflag, hkept⟩ := exec_writesFlagThenReg s (i := .shl x y) rfl
  exact ⟨t, hexec, hdouble ▸ shlResult_toNat _, fun hx => (hflag hx).trans (shlFlag_eq_ite _), hkept⟩

/-- Settles O32: the effect is one write of `I`. -/
theorem indexAddWrapsWithoutFlag : Obligations.IndexAddWrapsWithoutFlag := by
  intro x s
  obtain ⟨t, hexec, hI, hkept⟩ := exec_writesIndex s (i := .addIVx x) rfl
  exact ⟨t, hexec, hI ▸ indexPlusReg_toNat _ _, hkept⟩

/-- Settles O36: one register write after the draw is counted; the mask clears each bit outside it. -/
theorem randomByteIsMaskedIntoRegister : Obligations.RandomByteIsMaskedIntoRegister := by
  intro x kk s
  have hx : (s.countDraw.setReg x (drawByte s &&& kk)).reg x = Config.randomByte s.draws &&& kk :=
    reg_setReg_same _ x _
  refine ⟨_, rfl, hx, rfl, fun j hj => ?_, setReg_keepsRegs s.countDraw x _, by simp [partsKept_iff], fun _ => rfl⟩
  rw [hx, BitVec.getLsbD_and, hj, Bool.and_false]

/-- Settles O38: the effect is one write of the grid. -/
theorem clearUnlightsEveryPixel : Obligations.ClearUnlightsEveryPixel := fun _ =>
  ⟨_, rfl, pixel_blankGrid, rfl, fun _ _ => rfl, by simp [partsKept_iff], fun _ => rfl⟩

/-- Settles O42: both jumps are one write of `pc`. -/
theorem jumpsSetPcOnly : Obligations.JumpsSetPcOnly := by
  intro nnn s
  obtain ⟨t, hexec, hpc, hkept⟩ := exec_writesPc s (i := .jp nnn) rfl
  obtain ⟨u, hexec', hpc', hkept'⟩ := exec_writesPc s (i := .jpV0 nnn) rfl
  exact ⟨⟨t, hexec, hpc ▸ zext16_toNat nnn, hkept⟩, u, hexec', hpc' ▸ jumpV0Target_toNat s nnn, hkept'⟩

/-- Settles O43: a push by the stack's depth, then one write of `pc`. -/
theorem callPushesReturnAddress : Obligations.CallPushesReturnAddress := by
  intro nnn s
  refine ⟨fun h => ?_, call_raisesCause_of_full nnn⟩
  refine ⟨_, exec_call_of_sp_lt nnn h, zext16_toNat nnn, rfl, Vector.getElem_set_self h,
    fun j hj hne => Vector.getElem_set_ne h hj hne.symm, fun _ _ => rfl, by simp [partsKept_iff], fun _ => rfl⟩

/-- Settles O44: a pop by the stack's depth, then one write of `pc`. -/
theorem returnPopsReturnAddress : Obligations.ReturnPopsReturnAddress := by
  refine fun s => ⟨fun h => ?_, ret_raisesCause_of_empty⟩
  have hsp : s.sp.val = s.sp.val - 1 + 1 := by omega
  have hlt : s.sp.val - 1 < 16 := by omega
  exact ⟨_, hlt, exec_ret_of_sp_eq_succ hlt hsp, rfl, hsp.symm, rfl, fun _ _ => rfl, by simp [partsKept_iff],
    fun _ => rfl⟩

/-- Settles O46: each of the four is a skip on its condition. -/
theorem valueSkipsAdvanceOnCondition : Obligations.ValueSkipsAdvanceOnCondition := by
  rintro x y kk s skipped rfl
  exact ⟨skipIf_eq_ite s beq_iff_eq, skipIf_eq_ite s bne_iff_ne, skipIf_eq_ite s beq_iff_eq, skipIf_eq_ite s bne_iff_ne⟩

/-- Settles O47: both are a skip on the key's state, by whether the symbol names a key. -/
theorem keySkipsFollowPressedState : Obligations.KeySkipsFollowPressedState := by
  rintro x s skipped rfl
  refine ⟨fun h => ⟨skipIf_eq_ite s (by rw [keyPressed_of_lt s h]), ?_⟩, fun h => ⟨?_, ?_⟩⟩
  · show skipIf (!keyPressed s (s.reg x)) s = _
    rw [keyPressed_of_lt s h]
    cases s.keys[(s.reg x).toNat] <;> rfl
  · show skipIf (keyPressed s (s.reg x)) s = _
    rw [keyPressed_of_ge s h]; rfl
  · show skipIf (!keyPressed s (s.reg x)) s = _
    rw [keyPressed_of_ge s h]; rfl

/-- Settles O49: each is one write, of a register or of a timer. -/
theorem timerMovesCopyWholeByte : Obligations.TimerMovesCopyWholeByte := fun _ s =>
  ⟨writesRegOnly_of_exec_eq_setReg s rfl,
    ⟨_, rfl, rfl, fun _ _ => rfl, by simp [partsKept_iff], fun _ => rfl⟩,
    ⟨_, rfl, rfl, fun _ _ => rfl, by simp [partsKept_iff], fun _ => rfl⟩⟩

end Sys2Proof.Machine
end

section
/-! SUPPORT. The host's transitions: the tick part's fields, the key events, pause and resume, a cycle of an idle
machine (spec/40_execution_cycle.md R126 to R133). -/

namespace Sys2Proof.Machine

variable {s t : State}

theorem runState_halted : s.runState = .halted ↔ s.fault ≠ none := by
  unfold State.runState
  rcases s.fault with _ | f <;> rcases s.waitKey with _ | r <;> cases s.paused <;> simp

theorem runState_paused : s.runState = .paused ↔ s.fault = none ∧ s.waitKey = none ∧ s.paused = true := by
  unfold State.runState
  rcases s.fault with _ | f <;> rcases s.waitKey with _ | r <;> cases s.paused <;> simp

theorem tickPart_of_halted (h : s.runState = .halted) : tickPart s = (s, []) := if_pos h

/-- The frame report clears the flag and changes nothing else (40 R129). -/
theorem reportFrame_eq (s : State) :
    reportFrame s =
      ({ s with frameDirty := false }, if s.frameDirty = true then [Notification.frameDirty] else []) := by
  unfold reportFrame
  split <;> rename_i h
  · rfl
  · have hs : { s with frameDirty := false } = s := by rw [← Bool.eq_false_of_not_eq_true h]
    rw [hs]

/-- The state a tick part takes the sound level from: the timers counted, or frozen (40 R126). -/
def State.ticked (s : State) : State := if timersCount s then tickTimers s else s

theorem tickPart_of_not_halted (h : s.runState ≠ .halted) :
    tickPart s = ({ sampleSound s.ticked with frameDirty := false },
      if s.frameDirty = true then [Notification.frameDirty] else []) := by
  have hdirty : (sampleSound s.ticked).frameDirty = s.frameDirty := by
    unfold State.ticked
    split <;> rfl
  rw [tickPart, if_neg h, ← hdirty]
  exact reportFrame_eq _

theorem ticked_of_counting (h : s.runState = .running ∨ s.cfg.tickWhenPaused = true) : s.ticked = tickTimers s :=
  if_pos (by simpa [timersCount] using h)

theorem ticked_of_frozen (h : s.runState ≠ .running) (h' : s.cfg.tickWhenPaused = false) : s.ticked = s :=
  if_neg (by simp [timersCount, h, h'])

/-- Whether it counts the timers or not, a tick changes nothing else. -/
theorem ticked_eq (s : State) : s.ticked = { s with DT := s.ticked.DT, ST := s.ticked.ST } := by
  unfold State.ticked
  split <;> rfl

/-- A step of a machine that is not `Running` adds nothing to a schedule (40 R121). -/
theorem runSlots_step_of_not_running (h : s.runState ≠ .running) (slots : List Slot) :
    runSlots (.step :: slots) s = runSlots slots s := by
  have hquiet : fatalRaised s s = [] := by
    unfold fatalRaised
    cases s.fault <;> rfl
  have hslot : runSlot .step s = .next (s, []) := by rw [runSlot, step_of_not_running h, ← hquiet]
  rw [runSlots, hslot]
  dsimp only
  cases runSlots slots s <;> rfl

/-- A cycle of a machine that is not `Running` is its tick part, whatever its number of steps (40 R126). -/
theorem cycle_of_not_running (h : s.runState ≠ .running) (n : Nat) : cycle n s = .next (tickPart s) := by
  unfold cycle cycleSlots
  induction n with
  | zero => simp [runSlots, runSlot]
  | succ n ih =>
    rw [List.replicate_succ, List.cons_append, runSlots_step_of_not_running h]
    exact ih

theorem keyPress_keys (k : Nibble) (s : State) (j : Nat) (h : j < 16) :
    (keyPress k s).keys[j] = if j = k.toNat then true else s.keys[j] := by
  simp only [keyPress, Vector.getElem_set, eq_comm]

/-- A release clears its key, whether it ends a wait or not (40 R131). -/
theorem keyRelease_keys (k : Nibble) (s : State) (j : Nat) (h : j < 16) :
    (keyRelease k s).keys[j] = if j = k.toNat then false else s.keys[j] := by
  have hkeys : (keyRelease k s).keys = s.keys.set k.toNat false k.isLt := by
    rcases keyRelease_cases k s with e | ⟨_, _, _, e⟩ <;> simp [e]
  simp only [hkeys, Vector.getElem_set, eq_comm]

theorem keyRelease_mem (k : Nibble) (s : State) : (keyRelease k s).mem = s.mem := by
  rcases keyRelease_cases k s with e | ⟨_, _, _, e⟩ <;> simp [e]

theorem keyRelease_cfg (k : Nibble) (s : State) : (keyRelease k s).cfg = s.cfg := by
  rcases keyRelease_cases k s with e | ⟨_, _, _, e⟩ <;> simp [e]

/-- With no wait armed, or in `Halted`, a release only clears its key (40 R131). -/
theorem keyRelease_of_no_wait (k : Nibble) (h : s.waitKey = none ∨ s.fault ≠ none) :
    keyRelease k s = { s with keys := s.keys.set k.toNat false k.isLt } := by
  rcases keyRelease_cases k s with e | ⟨r, hw, hf, _⟩
  · exact e
  · rcases h with h | h
    · rw [h] at hw; cases hw
    · exact absurd hf h

theorem hostResume_of_no_wait (h : s.waitKey = none) : hostResume s = { s with paused := false } := by
  rcases hostResume_cases s with ⟨x, hw, _⟩ | ⟨_, e⟩
  · rw [h] at hw; cases hw
  · exact e

end Sys2Proof.Machine
end

section
/-! SUPPORT. Family 40_execution_cycle.md settled: the tick part, idle cycles, and the host's key and pause events. -/

namespace Sys2Proof.Machine

/-- Settles O52, by whether the machine is `Halted` and whether the timers count. -/
theorem tickPartSamplesSoundAndReportsFrame : Obligations.TickPartSamplesSoundAndReportsFrame := by
  intro s t out h
  refine ⟨fun hhalted => ?_, fun hlive => ?_⟩
  · rw [tickPart_of_halted hhalted, Prod.mk.injEq] at h
    exact ⟨h.1.symm, h.2.symm⟩
  · rw [tickPart_of_not_halted hlive, Prod.mk.injEq] at h
    obtain ⟨rfl, rfl⟩ := h
    refine ⟨fun hcount => ?_, fun hrun hcfg => ?_, ?_, rfl, rfl, fun k _ => ?_, ?_, fun a => ?_⟩
    · rw [ticked_of_counting hcount]
      exact ⟨tickTimer_toNat s.DT, tickTimer_toNat s.ST⟩
    · rw [ticked_of_frozen hrun hcfg]
      exact ⟨rfl, rfl⟩
    · exact bne_iff_ne.trans (not_congr BitVec.toNat_inj.symm)
    · rw [ticked_eq]; rfl
    · rw [ticked_eq]; simp [partsKept_iff, sampleSound]
    · rw [ticked_eq]; rfl

/-- Settles O53: no step of an idle machine does anything, and in `Halted` the tick part does nothing either. -/
theorem cycleOfIdleMachineIsTickPart : Obligations.CycleOfIdleMachineIsTickPart := by
  refine fun n s => ⟨fun h => ?_, fun h => ?_⟩
  · have hidle : s.runState ≠ .running := by rcases h with h | h <;> simp [h]
    exact ⟨cycle_of_not_running hidle n, cycle_of_not_running hidle _⟩
  · have hidle : s.runState ≠ .running := by simp [h]
    rw [← tickPart_of_halted h]
    exact ⟨cycle_of_not_running hidle n, cycle_of_not_running hidle _⟩

/-- Settles O54: a release by whether it ends a wait. -/
theorem keyEventsUpdateKeysAndEndWait : Obligations.KeyEventsUpdateKeysAndEndWait := by
  refine fun k s => ⟨keyPress_keys k s, fun _ _ => rfl, by simp [partsKept_iff, keyPress], fun _ => rfl,
    keyRelease_keys k s, fun a => by rw [keyRelease_mem], fun r hw hf => ?_, fun h => ?_⟩
  · rw [keyRelease_of_waitKey k hw hf]
    exact ⟨reg_setReg_same _ r _, rfl, rfl, setReg_keepsRegs s r _, by simp [partsKept_iff]⟩
  · rw [keyRelease_of_no_wait k h]
    exact ⟨fun _ _ => rfl, by simp [partsKept_iff]⟩

/-- Settles O55: a resume by whether a wait is armed. -/
theorem pauseAndResumeMoveOnlyFlag : Obligations.PauseAndResumeMoveOnlyFlag := by
  refine fun s => ⟨rfl, rfl, fun _ _ => rfl, by simp [partsKept_iff, hostPause], fun _ => rfl, fun hw => ?_,
    fun hw => ?_⟩
  · obtain ⟨x, hx⟩ := Option.ne_none_iff_exists'.1 hw
    exact hostResume_of_waitKey hx
  · rw [hostResume_of_no_wait hw]
    exact ⟨rfl, hw, fun _ _ => rfl, by simp [partsKept_iff], fun _ => rfl⟩

end Sys2Proof.Machine
end

section
/-! SUPPORT. What each slot of a schedule does to the run state, the configuration, the keys and memory, and what a slot
does to a `Halted` machine (spec/40_execution_cycle.md R134, R135; spec/60_exceptions.md R278). -/

namespace Sys2Proof.Machine

variable {s t : State} {out : List Notification}

/-! ### The run state -/

/-- `LD Vx, K` alone has the pause and the wait among its columns (10 R42). -/
theorem run_mem_writtenParts {i : Instr} : .run ∈ writtenParts i ↔ ∃ x, i = .ldVxK x := by
  cases i <;> simp [writtenParts]

/-- A step that completes leaves the machine waiting after `LD Vx, K` and `Running` after any other (40 R135). -/
theorem step_runState_of_completed (hrun : s.runState = .running) (hc : raisedCause s = none) (h : step s = .next t) :
    ((∃ x, decode s.opcode = some (.ldVxK x)) → t.runState = .waitingForKey) ∧
    ((∀ x, decode s.opcode ≠ some (.ldVxK x)) → t.runState = .running) := by
  rcases step_outcome h with ⟨hidle, _⟩ | ⟨_, hraise, _⟩ | ⟨_, _, hclean, i, _, hd, he⟩
  · exact absurd hrun hidle
  · exact absurd hc hraise
  · obtain ⟨hfault, hwait, hpaused⟩ := runState_running.1 hrun
    constructor
    · rintro ⟨x, hx⟩
      obtain rfl : i = .ldVxK x := Option.some.inj (hd.symm.trans hx)
      cases he
      exact runState_waitingForKey.2 ⟨hclean, x, rfl⟩
    · intro hother
      have hcol : .run ∉ writtenParts i := fun hmem => by
        obtain ⟨x, rfl⟩ := run_mem_writtenParts.1 hmem
        exact hother x hd
      obtain ⟨hp, hw⟩ : t.paused = s.paused ∧ t.waitKey = s.waitKey := exec_keepsParts_of_clean he hclean .run hcol
      exact runState_running.2 ⟨hclean, hw.trans hwait, hp.trans hpaused⟩

theorem step_runState_of_raised (hrun : s.runState = .running) (hc : raisedCause s ≠ none) (h : step s = .next t) :
    t.runState = .halted := by
  rcases step_outcome h with ⟨hidle, _⟩ | ⟨_, _, r, rfl⟩ | ⟨_, hnone, _⟩
  · exact absurd hrun hidle
  · exact runState_halted.2 (Option.some_ne_none r)
  · exact absurd hnone hc

theorem tickPart_runState (s : State) : (tickPart s).1.runState = s.runState := by
  rcases tickPart_cases s with e | e
  · rw [e]
  · rw [e]; rfl

theorem hostPause_runState (s : State) :
    (hostPause s).runState = if s.runState = .running then .paused else s.runState := by
  unfold State.runState hostPause
  cases s.fault <;> cases s.waitKey <;> cases s.paused <;> rfl

theorem hostResume_runState (s : State) :
    (hostResume s).runState = if s.runState = .paused then .running else s.runState := by
  rcases hostResume_cases s with ⟨x, hw, e⟩ | ⟨hw, e⟩ <;> rw [e]
  · rw [if_neg fun h => by rw [runState_paused, hw] at h; cases h.2.1]
  · unfold State.runState
    rw [hw]
    cases s.fault <;> cases s.paused <;> rfl

theorem keyRelease_runState (k : Nibble) (s : State) :
    (keyRelease k s).runState = if s.runState = .waitingForKey then .running else s.runState := by
  split <;> rename_i h
  · obtain ⟨hf, r, hw⟩ := runState_waitingForKey.1 h
    rw [keyRelease_of_waitKey k hw hf]
    exact runState_running.2 ⟨hf, rfl, rfl⟩
  · rcases keyRelease_cases k s with e | ⟨r, hw, hf, _⟩
    · rw [e]; rfl
    · exact absurd (runState_waitingForKey.2 ⟨hf, r, hw⟩) h

/-! ### A `Halted` machine -/

/-- In `Halted` a slot other than `Reset` and a load that fits changes at most the keys and the pause (60 R278). -/
theorem runSlot_of_halted {slot : Slot} (hhalted : s.runState = .halted)
    (hslot : slot ≠ .event .reset ∧ ∀ bytes, slot = .event (.loadRom bytes) → 3584 < bytes.length)
    (h : runSlot slot s = .next (t, out)) : t = { s with keys := t.keys, paused := t.paused } := by
  obtain ⟨hreset, hload⟩ := hslot
  have hfault : s.fault ≠ none := runState_halted.1 hhalted
  rcases runSlot_cases h with ⟨_, e, _⟩ | ⟨_, e⟩ | ⟨ev, rfl, e⟩
  · rw [step_of_not_running (by simp [hhalted])] at e
    cases e; rfl
  · rw [tickPart_of_halted hhalted] at e
    cases e; rfl
  · cases ev with
    | keyPress k => cases e; rfl
    | keyRelease k =>
      obtain rfl : keyRelease k s = t := congrArg Prod.fst e
      rw [keyRelease_of_no_wait k (.inr hfault)]
    | hostPause => cases e; rfl
    | hostResume =>
      obtain rfl : hostResume s = t := congrArg Prod.fst e
      rcases hostResume_cases s with ⟨_, _, e'⟩ | ⟨_, e'⟩ <;> rw [e']
    | reset => exact absurd rfl hreset
    | loadRom bytes =>
      obtain rfl : (loadRom bytes s).1 = t := congrArg Prod.fst e
      rw [loadRom_of_not_fits (hload bytes rfl)]

/-- Over a schedule without `Reset` and fitting loads a `Halted` machine changes at most its keys and pause (60
R278). -/
theorem runSlots_of_halted {slots : List Slot}
    (hslots : ∀ slot ∈ slots, slot ≠ .event .reset ∧ ∀ bytes, slot = .event (.loadRom bytes) → 3584 < bytes.length)
    (hhalted : s.runState = .halted) (h : runSlots slots s = .next (t, out)) :
    t = { s with keys := t.keys, paused := t.paused } := by
  refine runSlots_induction (P := fun s t => s.runState = .halted → t = { s with keys := t.keys, paused := t.paused })
    (fun _ _ => rfl) slots (fun slot hm s t u out e hrest hs => ?_) s t out h hhalted
  have ht := runSlot_of_halted hs (hslots slot hm) e
  have hfault : t.fault = s.fault := by rw [ht]
  have hu := hrest (runState_halted.2 (hfault ▸ runState_halted.1 hs))
  rw [ht] at hu
  exact hu

/-! ### The configuration, the keys and memory -/

/-- No instruction has the configuration or the keys among its columns (10 R42). -/
theorem step_keepsCfgAndKeys (h : step s = .next t) : t.cfg = s.cfg ∧ t.keys = s.keys := by
  constructor
  · rcases step_keepsPart_or_exec h (p := .cfg) (by decide) with hsame | ⟨i, _, hw, _⟩
    · exact hsame
    · cases i <;> simp [writtenParts] at hw
  · rcases step_keepsPart_or_exec h (p := .keys) (by decide) with hsame | ⟨i, _, hw, _⟩
    · exact hsame
    · cases i <;> simp [writtenParts] at hw

theorem tickPart_keeps (s : State) :
    (tickPart s).1.cfg = s.cfg ∧ (tickPart s).1.keys = s.keys ∧ (tickPart s).1.mem = s.mem := by
  rcases tickPart_cases s with e | e <;> (rw [e]; exact ⟨rfl, rfl, rfl⟩)

theorem applyEvent_loadRom (bytes : List Byte) (s : State) : applyEvent (.loadRom bytes) s = loadRom bytes s := rfl

/-- A load keeps the configuration and the keys, fitting or not (70 R302). -/
theorem loadRom_keepsCfgAndKeys (bytes : List Byte) (s : State) :
    (loadRom bytes s).1.cfg = s.cfg ∧ (loadRom bytes s).1.keys = s.keys := by
  unfold loadRom
  split <;> exact ⟨rfl, rfl⟩

theorem hostResume_keeps (s : State) :
    (hostResume s).cfg = s.cfg ∧ (hostResume s).keys = s.keys ∧ (hostResume s).mem = s.mem := by
  rcases hostResume_cases s with ⟨_, _, e⟩ | ⟨_, e⟩ <;> (rw [e]; exact ⟨rfl, rfl, rfl⟩)

theorem applyEvent_cfg (e : HostEvent) (s : State) : (applyEvent e s).1.cfg = s.cfg := by
  cases e with
  | keyRelease k => exact keyRelease_cfg k s
  | hostResume => exact (hostResume_keeps s).1
  | loadRom bytes => rw [applyEvent_loadRom]; exact (loadRom_keepsCfgAndKeys bytes s).1
  | keyPress | hostPause | reset => rfl

theorem applyEvent_keys {e : HostEvent} (s : State) (h : ∀ k, e ≠ .keyPress k ∧ e ≠ .keyRelease k) :
    (applyEvent e s).1.keys = s.keys := by
  cases e with
  | keyPress k => exact absurd rfl (h k).1
  | keyRelease k => exact absurd rfl (h k).2
  | hostResume => exact (hostResume_keeps s).2.1
  | loadRom bytes => rw [applyEvent_loadRom]; exact (loadRom_keepsCfgAndKeys bytes s).2
  | hostPause | reset => rfl

theorem applyEvent_mem {e : HostEvent} (s : State) (hreset : e ≠ .reset) (hload : ∀ bytes, e ≠ .loadRom bytes) :
    (applyEvent e s).1.mem = s.mem := by
  cases e with
  | keyRelease k => exact keyRelease_mem k s
  | hostResume => exact (hostResume_keeps s).2.2
  | reset => exact absurd rfl hreset
  | loadRom bytes => exact absurd rfl (hload bytes)
  | keyPress | hostPause => rfl

theorem runSlot_cfg {slot : Slot} (h : runSlot slot s = .next (t, out)) : t.cfg = s.cfg := by
  rcases runSlot_cases h with ⟨_, e, _⟩ | ⟨_, e⟩ | ⟨ev, _, e⟩
  · exact (step_keepsCfgAndKeys e).1
  · simpa [e] using (tickPart_keeps s).1
  · simpa [e] using applyEvent_cfg ev s

theorem runSlot_keys {slot : Slot} (hslot : ∀ k, slot ≠ .event (.keyPress k) ∧ slot ≠ .event (.keyRelease k))
    (h : runSlot slot s = .next (t, out)) : t.keys = s.keys := by
  rcases runSlot_cases h with ⟨_, e, _⟩ | ⟨_, e⟩ | ⟨ev, rfl, e⟩
  · exact (step_keepsCfgAndKeys e).2
  · simpa [e] using (tickPart_keeps s).2.1
  · simpa [e] using applyEvent_keys s (e := ev) fun k => by simpa using hslot k

theorem runSlot_mem {slot : Slot}
    (hslot : slot ≠ .step ∧ slot ≠ .event .reset ∧ ∀ bytes, slot ≠ .event (.loadRom bytes))
    (h : runSlot slot s = .next (t, out)) : t.mem = s.mem := by
  obtain ⟨hstep, hreset, hload⟩ := hslot
  rcases runSlot_cases h with ⟨hs, _⟩ | ⟨_, e⟩ | ⟨ev, rfl, e⟩
  · exact absurd hs hstep
  · simpa [e] using (tickPart_keeps s).2.2
  · simpa [e] using applyEvent_mem s (e := ev) (by simpa using hreset) (by simpa using hload)

end Sys2Proof.Machine
end

section
/-! SUPPORT. Families 40_execution_cycle.md and 60_exceptions.md settled: schedules. -/

namespace Sys2Proof.Machine

/-- Settles O56: the state at the end is the first one but for its keys and pause. -/
theorem haltedUntilResetOrLoad : Obligations.HaltedUntilResetOrLoad := by
  intro slots s t out hhalted hslots h
  have hfault : s.fault ≠ none := runState_halted.1 hhalted
  rw [runSlots_of_halted hslots hhalted h]
  exact ⟨rfl, runState_halted.2 hfault, rfl, fun _ _ => rfl, by simp [partsKept_iff], fun _ => rfl⟩

/-- Settles O57, one rule per row of the table. -/
theorem runStateTransitionsFollowTable : Obligations.RunStateTransitionsFollowTable := by
  intro slot s t out h
  rcases runSlot_cases h with ⟨rfl, e, _⟩ | ⟨rfl, e⟩ | ⟨ev, rfl, e⟩
  · refine ⟨fun hidle => ?_, fun hrun hc => step_runState_of_raised hrun hc e,
      fun hrun hc => step_runState_of_completed hrun hc e⟩
    rw [step_of_not_running hidle] at e
    cases e; rfl
  · simpa [e] using tickPart_runState s
  · have ht : (applyEvent ev s).1 = t := congrArg Prod.fst e
    cases ev with
    | keyPress k => exact ht ▸ keyPress_runState k s
    | keyRelease k => exact ht ▸ keyRelease_runState k s
    | hostPause => exact ht ▸ hostPause_runState s
    | hostResume => exact ht ▸ hostResume_runState s
    | reset => exact ht ▸ rfl
    | loadRom bytes =>
      rw [applyEvent_loadRom] at e
      refine ⟨fun hfit => ?_, fun hlong => ?_⟩
      · rw [loadRom_of_fits hfit] at e
        cases e; rfl
      · rw [loadRom_of_not_fits hlong, Prod.mk.injEq] at e
        obtain ⟨rfl, rfl⟩ := e
        exact ⟨rfl, List.cons_ne_nil _ _⟩

/-- Settles O58, by induction over the schedule with one rule per slot for each of the three. -/
theorem outsideInputsChangeOnlyFromOutside : Obligations.OutsideInputsChangeOnlyFromOutside := by
  intro slots s t out h
  refine ⟨?_, fun hslots => ?_, fun hslots => ?_⟩
  · exact runSlots_induction (P := fun s t => t.cfg = s.cfg) (fun _ => rfl) slots
      (fun _ _ _ _ _ _ e hrest => hrest.trans (runSlot_cfg e)) s t out h
  · exact runSlots_induction (P := fun s t => t.keys = s.keys) (fun _ => rfl) slots
      (fun slot hm _ _ _ _ e hrest => hrest.trans (runSlot_keys (hslots slot hm) e)) s t out h
  · exact runSlots_induction (P := fun s t => t.mem = s.mem) (fun _ => rfl) slots
      (fun slot hm _ _ _ _ e hrest => hrest.trans (runSlot_mem (hslots slot hm) e)) s t out h

end Sys2Proof.Machine
end

section
/-! SUPPORT. Which instructions can leave the machine exactly where it was, and the runs that end
(spec/40_execution_cycle.md R125). -/

namespace Sys2Proof.Machine

variable {s t u : State} {i : Instr}

/-- After the advance `pc` is two further on, with no wrap where an opcode can be fetched. -/
theorem advance_pc_toNat (hpc : s.pc.toNat + 1 < memSize) : (advance s).pc.toNat = s.pc.toNat + 2 := by
  simp only [memSize] at hpc
  rw [advance_pc, BitVec.toNat_ofNat, Nat.mod_eq_of_lt (by omega)]

/-- A skip from a low `pc` leaves it there or two further on. -/
theorem skipIf_pc_ge {cond : Bool} (hpc : s.pc.toNat ≤ 0x1000) (h : skipIf cond s = .next t) :
    s.pc.toNat ≤ t.pc.toNat := by
  obtain rfl := Host.Outcome.next.inj h
  cases cond
  · exact Nat.le_refl _
  · show s.pc.toNat ≤ (trunc16 (s.pc.toNat + 2)).toNat
    rw [BitVec.toNat_ofNat, Nat.mod_eq_of_lt (by omega)]
    exact Nat.le_add_right _ _

/-- No raise leaves the latch empty. -/
theorem raise_ne_next_of_clean {c : FaultCause} (hf : t.fault = none) : raise i c s ≠ .next t := fun h => by
  cases h; cases hf

/-- The instructions that can end in the state before their own step are the two jumps: the others move `pc` on, or the
stack. -/
theorem jump_of_exec_advance_self (hpc : s.pc.toNat + 1 < memSize) (hf : s.fault = none)
    (h : exec i (advance s) = .next s) : (∃ nnn, i = .jp nnn) ∨ ∃ nnn, i = .jpV0 nnn := by
  have hadv := advance_pc_toNat hpc
  simp only [memSize] at hpc
  cases i with
  | jp nnn => exact .inl ⟨nnn, rfl⟩
  | jpV0 nnn => exact .inr ⟨nnn, rfl⟩
  | call nnn =>
    rw [exec_call] at h
    rcases push_cases (advance s) (advance s).pc with ⟨_, e⟩ | ⟨_, e⟩ <;> rw [e] at h
    · exact absurd h (raise_ne_next_of_clean hf)
    · have hsp : s.sp.val + 1 = s.sp.val := congrArg (fun v : State => v.sp.val) (Host.Outcome.next.inj h)
      omega
  | ret =>
    rw [exec_ret] at h
    rcases pop_cases (advance s) with ⟨_, e⟩ | ⟨_, _, hne, e⟩ <;> rw [e] at h
    · exact absurd h (raise_ne_next_of_clean hf)
    · have hsp : s.sp.val - 1 = s.sp.val := congrArg (fun v : State => v.sp.val) (Host.Outcome.next.inj h)
      rw [advance_sp] at hne
      omega
  | seByte | sneByte | seReg | sneReg | skp | sknp =>
    have := skipIf_pc_ge (by omega) h
    omega
  | _ =>
    have hsame : s.pc = (advance s).pc := exec_keepsParts_of_clean h hf .pc (by simp [writtenParts])
    rw [← hsame] at hadv
    omega

/-- A `Running` machine whose step changes nothing jumps to where it is. -/
theorem jump_to_self_of_step_self (hrun : s.runState = .running) (h : step s = .next s) :
    s.finished ∨ ∃ nnn, decode s.opcode = some (.jpV0 nnn) ∧ nnn.toNat + (s.reg 0#4).toNat = s.pc.toNat := by
  have hf : s.fault = none := (runState_running.1 hrun).1
  rcases step_outcome h with ⟨hidle, _⟩ | ⟨_, _, r, e⟩ | ⟨_, _, _, i, hpc, hd, he⟩
  · exact absurd hrun hidle
  · rw [e] at hf; cases hf
  · rcases jump_of_exec_advance_self hpc hf he with ⟨nnn, rfl⟩ | ⟨nnn, rfl⟩
    · have htarget : zext16 nnn = s.pc := congrArg State.pc (Host.Outcome.next.inj he)
      have hback : s.pc.setWidth 12 = nnn := by
        rw [← htarget]
        apply BitVec.eq_of_toNat_eq
        rw [BitVec.toNat_setWidth, zext16_toNat, Nat.mod_eq_of_lt nnn.isLt]
      exact .inl ⟨hrun, by simp only [memSize] at hpc; omega, hback ▸ hd⟩
    · have htarget : jumpV0Target (advance s) nnn = s.pc := congrArg State.pc (Host.Outcome.next.inj he)
      exact .inr ⟨nnn, hd, by rw [← htarget, jumpV0Target_toNat, reg_advance]⟩

/-- A run that ends after `n` steps is in its last state from then on. -/
theorem run_of_endsAt {n k : Nat} (h : EndsAt n s t) (hk : n ≤ k) : Sys2Proof.core.run k s = .next t := by
  obtain ⟨hrun, hfin, _⟩ := h
  obtain ⟨d, rfl⟩ := Nat.exists_eq_add_of_le hk
  rw [run_add_of_next hrun]
  exact run_of_step_self (M := Sys2Proof.core) (step_of_finished hfin)

/-- No run ends twice: the earlier end would be a finished state before the later one. -/
theorem endsAt_count_le {m n : Nat} (h : EndsAt n s t) (h' : EndsAt m s u) : m ≤ n := by
  obtain ⟨hrun, hfin, _⟩ := h
  obtain ⟨_, _, hbefore⟩ := h'
  exact Nat.le_of_not_lt fun hlt => hbefore n hlt t hrun hfin

/-- A run gets to its end only through `Running` states: any other state stays for ever (40 R121). -/
theorem running_before_end {n k : Nat} (h : EndsAt n s t) (hk : k ≤ n) :
    ∃ v, Sys2Proof.core.run k s = .next v ∧ v.runState = .running := by
  obtain ⟨hrun, ⟨hrunning, _⟩, _⟩ := h
  obtain ⟨d, rfl⟩ := Nat.exists_eq_add_of_le hk
  obtain ⟨v, hv⟩ := run_prefix (M := Sys2Proof.core) hrun
  refine ⟨v, hv, ?_⟩
  by_contra hidle
  have hstay : Sys2Proof.core.run d v = .next v := run_of_step_self (M := Sys2Proof.core) (step_of_not_running hidle)
  rw [run_add_of_next hv, hstay] at hrun
  exact hidle (Host.Outcome.next.inj hrun ▸ hrunning)

end Sys2Proof.Machine
end

section
/-! SUPPORT. Family 40_execution_cycle.md settled: the end of a run. -/

namespace Sys2Proof.Machine

/-- Settles O59: a finished machine jumps to itself, and of all instructions only the two jumps can. -/
theorem finishedMachineLoopsInPlace : Obligations.FinishedMachineLoopsInPlace := fun _ =>
  ⟨fun h _ => run_of_step_self (M := Sys2Proof.core) (step_of_finished h), jump_to_self_of_step_self⟩

/-- Settles O60: the end's count is the same from either side, and its state is what the run answers there. -/
theorem runEndsOnceAndStays : Obligations.RunEndsOnceAndStays := by
  refine fun n s t h => ⟨fun m u h' => ?_, fun k => run_of_endsAt h, fun k => running_before_end h⟩
  have hmn : m = n := Nat.le_antisymm (endsAt_count_le h h') (endsAt_count_le h' h)
  have hu := run_of_endsAt h' (Nat.le_of_eq hmn)
  exact ⟨hmn, Host.Outcome.next.inj (hu.symm.trans h.1)⟩

end Sys2Proof.Machine
end

section
/-! SUPPORT. The sprite a draw reads from memory, against the pixels the statements say it covers (spec/46_display.md
R230, R232, R233). -/

namespace Sys2Proof.Machine

variable {s t : State}

/-- Coordinates count modulo the width and the height of the grid (46 R230). -/
theorem setPixel_wrap (g : Grid) (x y : Nat) :
    setPixel g (x + 64) y = setPixel g x y ∧ setPixel g x (y + 32) = setPixel g x y := by
  simp [setPixel, Grid.setTo, Grid.pixel]

/-- A pixel toggled twice is as it was. -/
theorem setPixel_setPixel (g : Grid) (x y : Nat) : setPixel (setPixel g x y).1 x y = (g, !g.pixel x y) := by
  obtain ⟨_, hpixel⟩ := setPixel_spec g x y
  obtain ⟨hold, hpixel'⟩ := setPixel_spec (setPixel g x y).1 x y
  refine Prod.ext (Grid.ext_pixel fun a b _ _ => ?_) ?_
  · rw [hpixel', hpixel]
    split <;> simp
  · rw [hold, hpixel, if_pos ⟨rfl, rfl⟩]

/-- The rows a draw reads. -/
def spriteRows (s : State) (n : Nat) : List Byte := (List.range n).map fun j => s.mem.byteAt (effectiveAddr s 0 + j)

theorem length_spriteRows (s : State) (n : Nat) : (spriteRows s n).length = n := by simp [spriteRows]

theorem getD_spriteRows {n r : Nat} (h : r < n) : (spriteRows s n).getD r 0#8 = s.mem.byteAt (effectiveAddr s r) := by
  rw [List.getD_eq_getElem _ _ (by rwa [length_spriteRows])]
  simp [spriteRows, effectiveAddr]

/-- The rows read cover the pixels `SpriteCovers` names, coordinates wrapped. -/
theorem spriteCovers_spriteRows (vx vy : Byte) (n a b : Nat) :
    spriteCovers (spriteRows s n) vx.toNat vy.toNat a b ↔ SpriteCovers s vx vy n (a % 64) (b % 32) := by
  have hcol : ∀ c, c ∈ [0, 1, 2, 3, 4, 5, 6, 7] ↔ c < 8 := fun c => List.mem_range (n := 8)
  constructor
  · rintro ⟨r, hr, c, hc, hbit, hx, hy⟩
    rw [length_spriteRows] at hr
    rw [getD_spriteRows hr] at hbit
    exact ⟨r, c, hr, (hcol c).1 hc, hbit, hx, hy⟩
  · rintro ⟨r, c, hr, hc, hbit, hx, hy⟩
    exact ⟨r, (length_spriteRows s n).symm ▸ hr, c, (hcol c).2 hc, by rwa [getD_spriteRows hr], hx, hy⟩

/-- Only pixels of the grid are covered. -/
theorem SpriteCovers.lt {vx vy : Byte} {n a b : Nat} (h : SpriteCovers s vx vy n a b) : a < 64 ∧ b < 32 := by
  obtain ⟨r, c, _, _, _, rfl, rfl⟩ := h
  exact ⟨Nat.mod_lt _ (by decide), Nat.mod_lt _ (by decide)⟩

/-- A pixel is the one at its coordinates modulo the grid's size. -/
theorem pixel_mod (g : Grid) (a b : Nat) : g.pixel (a % 64) (b % 32) = g.pixel a b := by
  simp [Grid.pixel]

/-- The grid a sprite of at most 15 rows leaves, and its erase report (46 R232). -/
theorem drawSprite_spec (vx vy : Byte) (n : Nibble) (g : Grid) :
    (∀ a b, a < 64 → b < 32 →
      (SpriteCovers s vx vy n.toNat a b →
        (drawSprite (spriteRows s n.toNat) vx.toNat vy.toNat g).1.pixel a b = !g.pixel a b) ∧
      (¬ SpriteCovers s vx vy n.toNat a b →
        (drawSprite (spriteRows s n.toNat) vx.toNat vy.toNat g).1.pixel a b = g.pixel a b)) ∧
    ((drawSprite (spriteRows s n.toNat) vx.toNat vy.toNat g).2 = true ↔
      ∃ a b, SpriteCovers s vx vy n.toNat a b ∧ g.pixel a b = true) := by
  have hlen : (spriteRows s n.toNat).length ≤ dispH := by
    have := n.isLt
    rw [length_spriteRows]; simp only [dispH]; omega
  obtain ⟨hpixel, hreport⟩ := drawRows_spec (spriteRows s n.toNat) vx.toNat vy.toNat (g, false) hlen
  constructor
  · intro a b ha hb
    have hcover := spriteCovers_spriteRows (s := s) vx vy n.toNat a b
    rw [Nat.mod_eq_of_lt ha, Nat.mod_eq_of_lt hb] at hcover
    constructor <;> intro h
    · rw [drawSprite, hpixel, decide_eq_true (hcover.2 h), Bool.xor_true]
    · rw [drawSprite, hpixel, decide_eq_false (mt hcover.1 h), Bool.xor_false]
  · rw [drawSprite, hreport]
    constructor
    · rintro (h | ⟨a, b, h, hlit⟩)
      · cases h
      · exact ⟨_, _, (spriteCovers_spriteRows vx vy _ a b).1 h, (pixel_mod g a b).trans hlit⟩
    · rintro ⟨a, b, h, hlit⟩
      obtain ⟨ha, hb⟩ := h.lt
      rw [← Nat.mod_eq_of_lt ha, ← Nat.mod_eq_of_lt hb] at h
      exact .inr ⟨a, b, (spriteCovers_spriteRows vx vy _ a b).2 h, hlit⟩

/-- A draw whose rows all lie in memory, or that has none, completes (46 R232). -/
theorem exec_drw_of_fits (x y : Reg) {n : Nibble} (h : n.toNat = 0 ∨ effectiveAddr s n.toNat ≤ 0x1000) :
    exec (.drw x y n) s =
      .next ((s.setReg VF
        (collisionFlag (drawSprite (spriteRows s n.toNat) (s.reg x).toNat (s.reg y).toNat s.px).2)).setGrid
        (drawSprite (spriteRows s n.toNat) (s.reg x).toNat (s.reg y).toNat s.px).1) := by
  rcases readBytes_cases s.mem (effectiveAddr s 0) n.toNat with ⟨_, e⟩ | ⟨hpos, hout, _⟩
  · exact exec_drw_ok e
  · simp only [effectiveAddr, memSize] at h hout
    omega

theorem collisionFlag_eq_one {erased : Bool} : collisionFlag erased = 0x01#8 ↔ erased = true := by
  cases erased <;> decide

theorem collisionFlag_zero_or_one (erased : Bool) : collisionFlag erased = 0x00#8 ∨ collisionFlag erased = 0x01#8 := by
  cases erased <;> decide

/-- What a sprite covers depends on `I` and memory only. -/
theorem spriteCovers_congr (hI : t.I = s.I) (hmem : t.mem = s.mem) {vx vy : Byte} {n a b : Nat} :
    SpriteCovers t vx vy n a b ↔ SpriteCovers s vx vy n a b := by
  unfold SpriteCovers effectiveAddr
  rw [hI, hmem]

end Sys2Proof.Machine
end

section
/-! SUPPORT. Family 46_display.md settled: one pixel, and sprites. -/

namespace Sys2Proof.Machine

/-- Settles O37: the toggle by one pixel's rule, the wrap by the coordinates alone. -/
theorem setPixelTogglesOneWrappedPixel : Obligations.SetPixelTogglesOneWrappedPixel := by
  intro g x y
  obtain ⟨hold, hpixel⟩ := setPixel_spec g x y
  obtain ⟨hwrapx, hwrapy⟩ := setPixel_wrap g x y
  refine ⟨hold, fun a b ha hb => ?_, hwrapx, hwrapy, setPixel_setPixel g x y⟩
  have hhit : (x % dispW = a % dispW ∧ y % dispH = b % dispH) ↔ (a = x % 64 ∧ b = y % 32) := by
    simp only [dispW, dispH]; omega
  rw [hpixel, if_congr hhit rfl rfl]

/-- Settles O39: the draw completes, and its grid and report are those of the rows it reads. -/
theorem drawTogglesSpriteAndReportsCollision : Obligations.DrawTogglesSpriteAndReportsCollision := by
  intro x y n s hfits
  obtain ⟨hpixel, hreport⟩ := drawSprite_spec (s := s) (s.reg x) (s.reg y) n s.px
  refine ⟨_, exec_drw_of_fits x y hfits, hpixel, ?_, ?_, rfl, setReg_keepsRegs s VF _,
    by simp [partsKept_iff], fun _ => rfl⟩
  · rw [reg_setGrid, reg_setReg_same]
    exact collisionFlag_zero_or_one _
  · rw [reg_setGrid, reg_setReg_same, collisionFlag_eq_one]
    exact hreport

/-- Settles O40: the read of the rows stops at the lowest out-of-range address. -/
theorem drawOutsideMemoryRaises : Obligations.DrawOutsideMemoryRaises := fun _ _ _ _ hpos hout =>
  raisesCause_of_exec_eq_raise (exec_drw_error (readBytes_error hpos hout))

/-- Settles O41: both draws cover the same pixels, so each covered pixel is toggled twice, and the second draw finds lit
what the first found unlit. -/
theorem drawingTwiceRestoresGrid : Obligations.DrawingTwiceRestoresGrid := by
  intro x y n s t u hx hy hfits ht hu
  obtain ⟨t', ht', hpixel, _, _, _, hregs, hparts, _⟩ := drawTogglesSpriteAndReportsCollision x y n s hfits
  obtain rfl : t' = t := Host.Outcome.next.inj (ht'.symm.trans ht)
  have hI : t'.I = s.I := hparts .index (by decide)
  have hmem : t'.mem = s.mem := by
    rw [exec_drw_of_fits x y hfits] at ht
    cases ht; rfl
  have hfits' : n.toNat = 0 ∨ effectiveAddr t' n.toNat ≤ 0x1000 := by rw [effectiveAddr, hI]; exact hfits
  obtain ⟨u', hu', hpixel', _, hflag', _⟩ := drawTogglesSpriteAndReportsCollision x y n t' hfits'
  obtain rfl : u' = u := Host.Outcome.next.inj (hu'.symm.trans hu)
  rw [hregs x (by simpa using hx), hregs y (by simpa using hy)] at hpixel' hflag'
  simp only [spriteCovers_congr hI hmem] at hpixel' hflag'
  constructor
  · refine Grid.ext_pixel fun a b ha hb => ?_
    obtain ⟨htoggled, hkept⟩ := hpixel a b ha hb
    obtain ⟨htoggled', hkept'⟩ := hpixel' a b ha hb
    by_cases hcover : SpriteCovers s (s.reg x) (s.reg y) n.toNat a b
    · rw [htoggled' hcover, htoggled hcover, Bool.not_not]
    · rw [hkept' hcover, hkept hcover]
  · rw [hflag']
    refine exists_congr fun a => exists_congr fun b => and_congr_right fun hcover => ?_
    obtain ⟨ha, hb⟩ := hcover.lt
    rw [(hpixel a b ha hb).1 hcover, Bool.not_eq_true']

end Sys2Proof.Machine
end
